-- ==== Sys2Proof/Word.lean ====
section
/-! DEFINITION. The codec's one data width: the 8-bit byte of rule R7 (spec/00_scope.md). Every store element,
every port byte and every byte of the line is one; there is no wider word (R65). -/

namespace Sys2Proof

/-- A byte: 8 bits, unsigned, bit 7 the most significant (R7). -/
abbrev Byte := BitVec 8

end Sys2Proof
end

