-- ==== Sys2Proof/Config.lean ====
section
/-! DEFINITION. What an implementation fixes: the eight parameters of rule R5 (spec/00_scope.md) with their
constraints, the five control codes of R90 (R6 asks for them here, as named constants), and the ASCII codes of R91
that no letter table of Machine/Operands.lean holds. The spec leaves no result on ordinary data undefined, so there
is no free value here. -/

namespace Sys2Proof

/-- The parameters of R5. The defaults are R5's. The two timeouts are OPEN in the spec (D16); 100 is the value its
test vectors use (DESIGN CHOICE, log entry 3): State carries the record, so a claim over states is a claim over
every value. -/
structure Config where
  /-- `FRAME_CAP`: bytes of a wire frame store. -/
  frameCap : Nat := 256
  /-- `NAME_CAP`: bytes of the device-name field of a request view. -/
  nameCap : Nat := 16
  /-- `DATA_CAP`: bytes of the data region of a write view. -/
  dataCap : Nat := frameCap - nameCap - 11
  /-- `RING_CAP`: byte slots of the ring. -/
  ringCap : Nat := frameCap
  /-- `TX_TIMEOUT_MS`. -/
  txTimeoutMs : Nat := 100
  /-- `RX_TIMEOUT_MS`. -/
  rxTimeoutMs : Nat := 100
  /-- `CLOCK_WIDTH`: bits of `NOW`. -/
  clockWidth : Nat := 32
  /-- `RESP_END`: the byte the ACK decoder takes as the end of the payload (conflict C1: EOT by default, ETX
  allowed). -/
  respEnd : Byte := 0x04
deriving DecidableEq, Repr

/-- ENQ, request frame start (R90). -/
def Config.ENQ : Byte := 0x05
/-- ACK, success response start (R90). -/
def Config.ACK : Byte := 0x06
/-- NAK, error response start (R90). -/
def Config.NAK : Byte := 0x15
/-- EOT, request frame end (R90). -/
def Config.EOT : Byte := 0x04
/-- ETX, response frame end per the protocol description (R90); the codec uses it only through `RESP_END`. -/
def Config.ETX : Byte := 0x03

/-- '0' (R91). -/
def Config.charZero : Byte := 0x30
/-- The last nibble character, '?' (R91, R95). -/
def Config.charQuery : Byte := 0x3F
/-- '%' (R91). -/
def Config.charPercent : Byte := 0x25
/-- 'R' (R91). -/
def Config.charR : Byte := 0x52
/-- 'W' (R91). -/
def Config.charW : Byte := 0x57
/-- 'S' (R91). -/
def Config.charS : Byte := 0x53
/-- 'B' (R91). -/
def Config.charB : Byte := 0x42

/-- The number of values of the clock input, `2^CLOCK_WIDTH` (R8, R38). -/
def Config.clockSpan (c : Config) : Nat := 2 ^ c.clockWidth

/-- The constraints of R5, checked once and statically. -/
abbrev Config.Valid (c : Config) : Prop :=
  4 ≤ c.nameCap ∧ c.nameCap ≤ 255 ∧ c.nameCap + c.dataCap + 11 ≤ c.frameCap ∧ 2 ≤ c.ringCap ∧
  (c.respEnd = Config.EOT ∨ c.respEnd = Config.ETX) ∧
  c.txTimeoutMs < c.clockSpan ∧ c.rxTimeoutMs < c.clockSpan

end Sys2Proof
end

