-- ==== Sys2Proof/Syntax.lean ====
section
/-! DEFINITION. The codec's requests as syntax: one constructor of Instr per row of spec/opcode_table.json (the
thirteen operations of R120, the wire forms of R104 to R106, the control codes of R90), the records that carry them
at the ports (what Decode.lean reads), and the event steps that have no row (R10, R131, R270, R300). -/

namespace Sys2Proof

/-- The twelve device types, in the order of R99. -/
inductive DeviceType where
  | p | m | k | f | t | c | l | n | d | u | z | r
deriving DecidableEq, Repr

/-- The five size markings, in the order of R108. -/
inductive SizeMark where
  | bit | byte | word | dword | lword
deriving DecidableEq, Repr

/-- The command descriptor of R107 without its payload. `addr_len` is the length of `addr` (R109); `count` is the
block count of the individual kinds and the data count of the continuous ones. -/
structure Descriptor where
  station : Byte
  dev : DeviceType
  size : SizeMark
  addr : List Byte
  count : Byte
deriving DecidableEq, Repr

/-- A request: one of the four command kinds with its descriptor (R107, R121, R171: a sum over the four kinds). The
write kinds carry the payload, `data_len` being its length. -/
inductive Command where
  | rss (d : Descriptor)
  | wss (d : Descriptor) (data : List Byte)
  | rsb (d : Descriptor)
  | wsb (d : Descriptor) (data : List Byte)
deriving DecidableEq, Repr

/-- The descriptor of a request. -/
def Command.desc : Command → Descriptor
  | .rss d => d
  | .wss d _ => d
  | .rsb d => d
  | .wsb d _ => d

/-- The payload of a request; a read has none (R107). -/
def Command.payload : Command → List Byte
  | .rss _ => []
  | .wss _ data => data
  | .rsb _ => []
  | .wsb _ data => data

/-- The two bytes that may end an ACK response (R5 `RESP_END`, conflict C1). -/
inductive Terminator where
  | eot | etx
deriving DecidableEq, Repr

/-- The fields of a success response on the line (R105). The data-byte count is the length of `data`, which holds the
raw values, before the '0'-shift of the wire. -/
structure AckFrame where
  station : Byte
  command : Byte
  ctype1 : Byte
  ctype2 : Byte
  blocks : Byte
  data : List Byte
  term : Terminator
deriving DecidableEq, Repr

/-- The fields of an error response on the line (R106). -/
structure NakFrame where
  station : Byte
  command : Byte
  ctype1 : Byte
  ctype2 : Byte
  blocks : Byte
  err1 : Byte
  err2 : Byte
  err3 : Byte
  err4 : Byte
deriving DecidableEq, Repr

/-- The two agents that may issue `RB.WRITE` (R20, R241). -/
inductive Port where
  | host | producer
deriving DecidableEq, Repr

/-- One constructor per row of spec/opcode_table.json. -/
inductive Instr where
  /-- `ENC.RSS`, R142. -/
  | encRss (d : Descriptor)
  /-- `ENC.WSS`, R143. -/
  | encWss (d : Descriptor) (data : List Byte)
  /-- `ENC.RSB`, R144. -/
  | encRsb (d : Descriptor)
  /-- `ENC.WSB`, R145. -/
  | encWsb (d : Descriptor) (data : List Byte)
  /-- `COMPACT`, R160. -/
  | compact
  /-- `SEND`, R175. -/
  | send
  /-- `DISPATCH`, R170. -/
  | dispatch (c : Command)
  /-- `RX.ARM`, R191. -/
  | rxArm
  /-- `RX.WAIT`, R196. -/
  | rxWait
  /-- `DECODE`, R220. -/
  | decodeOp
  /-- `RB.WRITE`, R241, from either port. -/
  | rbWrite (port : Port) (v : Byte)
  /-- `RB.READ`, R242. -/
  | rbRead
  /-- `RB.FLUSH`, R243. -/
  | rbFlush
  /-- `REQ.RSS`, the wire form of an individual read, R104. -/
  | reqRss (d : Descriptor)
  /-- `REQ.WSS`, the wire form of an individual write, R104. -/
  | reqWss (d : Descriptor) (data : List Byte)
  /-- `REQ.RSB`, the wire form of a continuous read, R104. -/
  | reqRsb (d : Descriptor)
  /-- `REQ.WSB`, the wire form of a continuous write, R104. -/
  | reqWsb (d : Descriptor) (data : List Byte)
  /-- `RESP.ACK`, the wire form of a success response, R105. -/
  | respAck (f : AckFrame)
  /-- `RESP.NAK`, the wire form of an error response, R106. -/
  | respNak (f : NakFrame)
  /-- `ENQ`, R90. -/
  | ctlEnq
  /-- `ACK`, R90. -/
  | ctlAck
  /-- `NAK`, R90. -/
  | ctlNak
  /-- `EOT`, R90. -/
  | ctlEot
  /-- `ETX`, R90. -/
  | ctlEtx
deriving DecidableEq, Repr

/-- What stands at the HOST's command port: the 4-bit operation code and, beside it, every operand an operation can
have, at the widths of R107, R120, R121 and R241. An operation reads the operands its rule names and no other (log
entry 8). -/
structure CommandRecord where
  op : BitVec 4
  kind : BitVec 2 := 0
  station : Byte := 0
  dev : BitVec 4 := 0
  size : BitVec 3 := 0
  addr : List Byte := []
  count : Byte := 0
  data : List Byte := []
  v : Byte := 0
deriving DecidableEq, Repr

/-- What an agent presents to the codec and Decode.lean reads as an instruction. -/
inductive Request where
  /-- The HOST's command port (R120). -/
  | command (r : CommandRecord)
  /-- The PRODUCER's port: an operation code and a byte (R20, R120). -/
  | producer (op : BitVec 4) (v : Byte)
  /-- A byte sequence on the line towards the codec, first byte first (R62). -/
  | line (bytes : List Byte)
deriving DecidableEq, Repr

/-- The steps that have no operation code (R10, R131, R270) and the reset (R300). -/
inductive Event where
  /-- `!TXACC`, R178. -/
  | txAccept
  /-- `!RX b`, R194. -/
  | rx (b : Byte)
  /-- `!IDLE`, R195. -/
  | idle
  /-- `!TICK`, R276. -/
  | tick
  /-- The blocked HOST looks whether a completion step of its operation is enabled and takes it (R176, R177, R197,
  R198). -/
  | hostPoll
  /-- The reset, R300. -/
  | reset
deriving DecidableEq, Repr

/-- One entry of the agents' schedule: a request at a port or an event. -/
inductive Stimulus where
  | request (r : Request)
  | event (e : Event)
deriving DecidableEq, Repr

end Sys2Proof
end

