-- ==== Sys2Proof/WellFormed.lean ====
section
/-! DEFINITION. When a term of Instr is an instruction of the spec: the descriptor bounds of R140 (with R107 and
R109) for the operations, the legitimate operands of R93 and R104 for the request wire forms, and the one-byte
data-byte count of R105 for the success response. Device types, size markings, kinds and operation codes are
enumerated, so their reserved codes (R127) have no term. -/

namespace Sys2Proof

/-- R109, R140: the address text fits the name field beside the three characters of its prefix. -/
abbrev Descriptor.fits (cfg : Config) (d : Descriptor) : Prop := d.addr.length + 3 ≤ cfg.nameCap

/-- R140: the preconditions of the matching `ENC.*` on its operands. -/
abbrev Command.fits (cfg : Config) (c : Command) : Prop :=
  c.desc.fits cfg ∧ c.payload.length ≤ cfg.dataCap

/-- R93, R109: an address byte the protocol calls legitimate is neither the padding byte nor the EOT marker. -/
abbrev Descriptor.legitimate (d : Descriptor) : Prop := ∀ b ∈ d.addr, b ≠ 0x00#8 ∧ b ≠ Config.EOT

/-- R93, R317: a payload byte whose '0'-shift is neither the padding byte nor the EOT marker. -/
abbrev legitimatePayload (data : List Byte) : Prop := ∀ b ∈ data, b ≠ 0xD0#8 ∧ b ≠ 0xD4#8

/-- R93, R146: operands for which the wire form of R104 is the compacted frame. -/
abbrev Command.legitimate (c : Command) : Prop := c.desc.legitimate ∧ legitimatePayload c.payload

/-- R104: the name length `3 + addr_len` is nibble-encoded, so it is one byte; the wire forms do not depend on
`NAME_CAP`. -/
abbrev Command.wireFits (c : Command) : Prop := c.desc.addr.length + 3 ≤ 255

/-- The check of an instruction against its rule, under the implementation's parameters. -/
abbrev WellFormed (cfg : Config) : Instr → Prop
  | .encRss d => Command.fits cfg (.rss d)
  | .encWss d data => Command.fits cfg (.wss d data)
  | .encRsb d => Command.fits cfg (.rsb d)
  | .encWsb d data => Command.fits cfg (.wsb d data)
  | .compact => True
  | .send => True
  | .dispatch c => c.fits cfg
  | .rxArm => True
  | .rxWait => True
  | .decodeOp => True
  | .rbWrite _ _ => True
  | .rbRead => True
  | .rbFlush => True
  | .reqRss d => Command.wireFits (.rss d) ∧ Command.legitimate (.rss d)
  | .reqWss d data => Command.wireFits (.wss d data) ∧ Command.legitimate (.wss d data)
  | .reqRsb d => Command.wireFits (.rsb d) ∧ Command.legitimate (.rsb d)
  | .reqWsb d data => Command.wireFits (.wsb d data) ∧ Command.legitimate (.wsb d data)
  | .respAck f => f.data.length ≤ 255
  | .respNak _ => True
  | .ctlEnq => True
  | .ctlAck => True
  | .ctlNak => True
  | .ctlEot => True
  | .ctlEtx => True

end Sys2Proof
end

