-- ==== Sys2Proof/Machine/Operands.lean ====
section
/-! DEFINITION. The operand forms: the two field transforms and their inverses (R94 to R98), the letter tables
(R99, R108), the four request views as running sums of their fields (R100 to R103), the wire forms of requests and
responses (R104 to R106), and the parse of a received response (R220 to R227). All of them are functions of bytes
alone; no state is read here. -/

namespace Sys2Proof

/-- The character of a nibble: its value added to the character code of '0' (R94). -/
def nibChar (n : BitVec 4) : Byte := n.setWidth 8 + Config.charZero

/-- `nib`, R94: the character of the high nibble first. -/
def nib (v : Byte) : List Byte := [nibChar (v.extractLsb' 4 4), nibChar (v.extractLsb' 0 4)]

/-- A byte in 0x30..0x3F, the image of `nibChar` (R96). -/
def isNibChar (c : Byte) : Bool := decide (Config.charZero ≤ c) && decide (c ≤ Config.charQuery)

/-- `unnib`, R96: `c1` stands at the lower index; no value where a character is outside 0x30..0x3F. -/
def unnib (c1 c0 : Byte) : Option Byte :=
  if isNibChar c1 && isNibChar c0 then some ((c1 - Config.charZero) * 16 + (c0 - Config.charZero)) else none

/-- `shift0`, R97: byte addition of '0', wrapping. -/
def shift0 (b : Byte) : Byte := b + Config.charZero

/-- `unshift0`, R98. -/
def unshift0 (c : Byte) : Byte := c - Config.charZero

/-- `devletter`, R99. -/
def devLetter : DeviceType → Byte
  | .p => 0x50 | .m => 0x4D | .k => 0x4B | .f => 0x46 | .t => 0x54 | .c => 0x43
  | .l => 0x4C | .n => 0x4E | .d => 0x44 | .u => 0x55 | .z => 0x5A | .r => 0x52

/-- `sizeletter`, R108. -/
def sizeLetter : SizeMark → Byte
  | .bit => 0x58 | .byte => 0x42 | .word => 0x57 | .dword => 0x44 | .lword => 0x4C

/-- The byte-size column of R108, which no rule of the codec uses. -/
def sizeBytes : SizeMark → Nat
  | .bit => 1 | .byte => 1 | .word => 2 | .dword => 4 | .lword => 8

/-- The device with a letter, the inverse of `devLetter`. -/
def letterDev (b : Byte) : Option DeviceType :=
  [DeviceType.p, .m, .k, .f, .t, .c, .l, .n, .d, .u, .z, .r].find? fun x => devLetter x == b

/-- The size marking with a letter, the inverse of `sizeLetter`. -/
def letterSize (b : Byte) : Option SizeMark :=
  [SizeMark.bit, .byte, .word, .dword, .lword].find? fun x => sizeLetter x == b

/-- The byte of an ACK terminator (R90). -/
def termByte : Terminator → Byte
  | .eot => Config.EOT
  | .etx => Config.ETX

/-- The name-length field of R141: three prefix characters and the address text. -/
def nameLength (d : Descriptor) : Byte := BitVec.ofNat 8 (3 + d.addr.length)

/-- The characters of the device name (R141 `fill_name`): '%', device letter, size letter, address text. -/
def nameText (d : Descriptor) : List Byte :=
  Config.charPercent :: devLetter d.dev :: sizeLetter d.size :: d.addr

/-- The shifted payload (R141 `fill_data`). -/
def payloadText (data : List Byte) : List Byte := data.map shift0

/-- Header, station, command byte and the two command-type bytes (R141 `fill_head`). -/
def headText (cmd t1 : Byte) (d : Descriptor) : List Byte :=
  Config.ENQ :: nib d.station ++ [cmd, Config.charS, t1]

/-- `bs`, left-justified in a field of `n` bytes, the rest zero. -/
def padTo (n : Nat) (bs : List Byte) : List Byte := bs ++ List.replicate (n - bs.length) 0x00#8

/-- The active view of a request: the tables of R100 (RSS), R101 (WSS), R102 (RSB) and R103 (WSB), field after
field. -/
def requestView (cfg : Config) : Command → List Byte
  | .rss d =>
    headText Config.charR Config.charS d ++ nib d.count ++ nib (nameLength d) ++
      padTo cfg.nameCap (nameText d) ++ [Config.EOT]
  | .wss d data =>
    headText Config.charW Config.charS d ++ nib d.count ++ nib (nameLength d) ++
      padTo cfg.nameCap (nameText d) ++ padTo cfg.dataCap (payloadText data) ++ [Config.EOT]
  | .rsb d =>
    headText Config.charR Config.charB d ++ nib (nameLength d) ++ padTo cfg.nameCap (nameText d) ++
      nib d.count ++ [Config.EOT]
  | .wsb d data =>
    headText Config.charW Config.charB d ++ nib (nameLength d) ++ padTo cfg.nameCap (nameText d) ++
      nib d.count ++ padTo cfg.dataCap (payloadText data) ++ [Config.EOT]

/-- All of `FRAME` after an `ENC.*`: the view, and 0x00 in every byte the view does not name (R141). -/
def frameImage (cfg : Config) (c : Command) : List Byte := padTo cfg.frameCap (requestView cfg c)

/-- The wire form of a request, R104. -/
def wireRequest : Command → List Byte
  | .rss d =>
    headText Config.charR Config.charS d ++ nib d.count ++ nib (nameLength d) ++ nameText d ++ [Config.EOT]
  | .wss d data =>
    headText Config.charW Config.charS d ++ nib d.count ++ nib (nameLength d) ++ nameText d ++
      payloadText data ++ [Config.EOT]
  | .rsb d =>
    headText Config.charR Config.charB d ++ nib (nameLength d) ++ nameText d ++ nib d.count ++ [Config.EOT]
  | .wsb d data =>
    headText Config.charW Config.charB d ++ nib (nameLength d) ++ nameText d ++ nib d.count ++
      payloadText data ++ [Config.EOT]

/-- The wire form of a success response, R105. -/
def wireAck (f : AckFrame) : List Byte :=
  Config.ACK :: nib f.station ++ [f.command, f.ctype1, f.ctype2] ++ nib f.blocks ++
    nib (BitVec.ofNat 8 f.data.length) ++ payloadText f.data ++ [termByte f.term]

/-- The wire form of an error response, R106. -/
def wireNak (f : NakFrame) : List Byte :=
  Config.NAK :: nib f.station ++ [f.command, f.ctype1, f.ctype2] ++ nib f.blocks ++
    [f.err1, f.err2, f.err3, f.err4]

/-- The response record of R223. -/
inductive Response where
  | ack (station command ctype1 ctype2 blocks dcount : Byte) (data : List Byte)
  | nak (station command ctype1 ctype2 blocks err1 err2 err3 err4 : Byte)
deriving DecidableEq, Repr

/-- `decode_ack` of R221 over the received bytes after the header; `none` is `MALFORMED_RESPONSE`. Bytes after the
terminator are ignored (R226). -/
def parseAck (respEnd : Byte) : List Byte → Option Response
  | s1 :: s0 :: command :: ctype1 :: ctype2 :: b1 :: b0 :: d1 :: d0 :: rest =>
    match unnib s1 s0, unnib b1 b0, unnib d1 d0 with
    | some station, some blocks, some dcount =>
      if rest[dcount.toNat]? = some respEnd then
        some (.ack station command ctype1 ctype2 blocks dcount ((rest.take dcount.toNat).map unshift0))
      else none
    | _, _, _ => none
  | _ => none

/-- `decode_nak` of R222 over the received bytes after the header; no terminator is looked for and bytes after the
error code are ignored (R226). -/
def parseNak : List Byte → Option Response
  | s1 :: s0 :: command :: ctype1 :: ctype2 :: b1 :: b0 :: e1 :: e2 :: e3 :: e4 :: _ =>
    match unnib s1 s0, unnib b1 b0 with
    | some station, some blocks => some (.nak station command ctype1 ctype2 blocks e1 e2 e3 e4)
    | _, _ => none
  | _ => none

/-- `DECODE` as a function of the received bytes (R220): `none` is `MALFORMED_RESPONSE`. -/
def parseResponse (respEnd : Byte) : List Byte → Option Response
  | [] => none
  | h :: rest =>
    if h = Config.ACK then parseAck respEnd rest
    else if h = Config.NAK then parseNak rest
    else none

end Sys2Proof
end

