-- ==== Sys2Proof/Decode.lean ====
section
/-! DEFINITION. From what stands at the ports and on the line to an instruction, and back: the operation codes of
R120, the kind tags of R121, the device and size codes of R99 and R108 with their reserved values (R127), the wire
forms of R104 to R106 and the control codes of R90. The decoder is total and rejects by name; the encoder follows
it. -/

namespace Sys2Proof

/-- Why a request is no instruction. -/
inductive DecodeError where
  /-- Operation code 13, 14 or 15 (R127). -/
  | reservedOperation
  /-- Device code 12 to 15 (R127). -/
  | reservedDevice
  /-- Size code 5, 6 or 7 (R127). -/
  | reservedSize
  /-- The PRODUCER's port accepts `RB.WRITE` only (R120, R274). -/
  | producerPort
  /-- A byte sequence of the line that is no row of the table; the line may carry any bytes (R194, U17). -/
  | notAFrame
deriving DecidableEq, Repr

/-- The device of a 4-bit code, R99. -/
def deviceOfCode (c : BitVec 4) : Except DecodeError DeviceType :=
  match c.toNat with
  | 0 => .ok .p | 1 => .ok .m | 2 => .ok .k | 3 => .ok .f | 4 => .ok .t | 5 => .ok .c
  | 6 => .ok .l | 7 => .ok .n | 8 => .ok .d | 9 => .ok .u | 10 => .ok .z | 11 => .ok .r
  | _ => .error .reservedDevice

/-- The size marking of a 3-bit code, R108. -/
def sizeOfCode (c : BitVec 3) : Except DecodeError SizeMark :=
  match c.toNat with
  | 0 => .ok .bit | 1 => .ok .byte | 2 => .ok .word | 3 => .ok .dword | 4 => .ok .lword
  | _ => .error .reservedSize

/-- The descriptor fields of a record (R107). -/
def descriptorOf (r : CommandRecord) : Except DecodeError Descriptor := do
  let dev ← deviceOfCode r.dev
  let size ← sizeOfCode r.size
  pure { station := r.station, dev := dev, size := size, addr := r.addr, count := r.count }

/-- The request a `DISPATCH` record names: its kind tag (R121) and its descriptor; only the write kinds have a
payload. -/
def commandOf (r : CommandRecord) : Except DecodeError Command := do
  let d ← descriptorOf r
  match r.kind.toNat with
  | 0 => pure (.rss d)
  | 1 => pure (.wss d r.data)
  | 2 => pure (.rsb d)
  | _ => pure (.wsb d r.data)

/-- The operation at the HOST's command port, R120. -/
def decodeCommand (r : CommandRecord) : Except DecodeError Instr :=
  match r.op.toNat with
  | 0 => do pure (.encRss (← descriptorOf r))
  | 1 => do pure (.encWss (← descriptorOf r) r.data)
  | 2 => do pure (.encRsb (← descriptorOf r))
  | 3 => do pure (.encWsb (← descriptorOf r) r.data)
  | 4 => .ok .compact
  | 5 => .ok .send
  | 6 => do pure (.dispatch (← commandOf r))
  | 7 => .ok .rxArm
  | 8 => .ok .rxWait
  | 9 => .ok .decodeOp
  | 10 => .ok (.rbWrite .host r.v)
  | 11 => .ok .rbRead
  | 12 => .ok .rbFlush
  | _ => .error .reservedOperation

/-- The operation at the PRODUCER's port: operation code 10 alone (R120). -/
def decodeProducer (op : BitVec 4) (v : Byte) : Except DecodeError Instr :=
  if op = 10 then .ok (.rbWrite .producer v) else .error .producerPort

/-- A control code standing alone on the line, R90. -/
def decodeControl (b : Byte) : Option Instr :=
  if b = Config.ENQ then some .ctlEnq
  else if b = Config.ACK then some .ctlAck
  else if b = Config.NAK then some .ctlNak
  else if b = Config.EOT then some .ctlEot
  else if b = Config.ETX then some .ctlEtx
  else none

/-- The name field on the line: '%', two letters and the address text, its length told by the name-length field; the
bytes that follow it are the second result. -/
def readName (nameLen : Byte) : List Byte → Option (DeviceType × SizeMark × List Byte × List Byte)
  | p :: t :: m :: rest =>
    match letterDev t, letterSize m with
    | some dev, some size =>
      let n := nameLen.toNat - 3
      if p = Config.charPercent ∧ 3 ≤ nameLen.toNat ∧ n ≤ rest.length then
        some (dev, size, rest.take n, rest.drop n)
      else none
    | _, _ => none
  | _ => none

/-- The payload of a write on the line: all bytes but the tail, unshifted; the tail must be EOT. -/
def readPayload (bs : List Byte) : Option (List Byte) :=
  if bs.getLast? = some Config.EOT then some (bs.dropLast.map unshift0) else none

/-- An individual request after its command type: block count, name length, name, and for a write the payload, then
EOT (R104). -/
def readIndividual (write : Bool) (station : Byte) : List Byte → Option Instr
  | n1 :: n0 :: l1 :: l0 :: rest =>
    match unnib n1 n0, unnib l1 l0 with
    | some count, some len =>
      match readName len rest with
      | some (dev, size, addr, tail) =>
        let d : Descriptor := { station := station, dev := dev, size := size, addr := addr, count := count }
        if write then (readPayload tail).map fun data => .reqWss d data
        else if tail = [Config.EOT] then some (.reqRss d) else none
      | none => none
    | _, _ => none
  | _ => none

/-- A continuous request after its command type: name length, name, data count, and for a write the payload, then EOT
(R104). -/
def readContinuous (write : Bool) (station : Byte) : List Byte → Option Instr
  | l1 :: l0 :: rest =>
    match unnib l1 l0 with
    | some len =>
      match readName len rest with
      | some (dev, size, addr, n1 :: n0 :: tail) =>
        match unnib n1 n0 with
        | some count =>
          let d : Descriptor := { station := station, dev := dev, size := size, addr := addr, count := count }
          if write then (readPayload tail).map fun data => .reqWsb d data
          else if tail = [Config.EOT] then some (.reqRsb d) else none
        | none => none
      | _ => none
    | none => none
  | _ => none

/-- A request frame after its ENQ (R104). -/
def readRequest : List Byte → Option Instr
  | s1 :: s0 :: cmd :: t0 :: t1 :: rest =>
    match unnib s1 s0 with
    | some station =>
      if t0 = Config.charS ∧ (cmd = Config.charR ∨ cmd = Config.charW) then
        if t1 = Config.charS then readIndividual (cmd = Config.charW) station rest
        else if t1 = Config.charB then readContinuous (cmd = Config.charW) station rest
        else none
      else none
    | none => none
  | _ => none

/-- The byte that ends a success response (R105). -/
def readTerm (b : Byte) : Option Terminator :=
  if b = Config.EOT then some .eot else if b = Config.ETX then some .etx else none

/-- A success response after its header: exactly the fields of R105, the payload located by its count. -/
def readAck : List Byte → Option Instr
  | s1 :: s0 :: command :: ctype1 :: ctype2 :: b1 :: b0 :: d1 :: d0 :: rest =>
    match unnib s1 s0, unnib b1 b0, unnib d1 d0 with
    | some station, some blocks, some dcount =>
      match rest.drop dcount.toNat with
      | [e] =>
        (readTerm e).map fun term =>
          .respAck { station := station, command := command, ctype1 := ctype1, ctype2 := ctype2,
                     blocks := blocks, data := (rest.take dcount.toNat).map unshift0, term := term }
      | _ => none
    | _, _, _ => none
  | _ => none

/-- An error response after its header: exactly the fields of R106. -/
def readNak : List Byte → Option Instr
  | [s1, s0, command, ctype1, ctype2, b1, b0, err1, err2, err3, err4] =>
    match unnib s1 s0, unnib b1 b0 with
    | some station, some blocks =>
      some (.respNak { station := station, command := command, ctype1 := ctype1, ctype2 := ctype2,
                       blocks := blocks, err1 := err1, err2 := err2, err3 := err3, err4 := err4 })
    | _, _ => none
  | _ => none

/-- The row of the table a byte sequence of the line is: a control code if it is one byte, else a frame, told by its
first byte. -/
def decodeLine (bytes : List Byte) : Except DecodeError Instr :=
  let i :=
    match bytes with
    | [] => none
    | [b] => decodeControl b
    | h :: rest =>
      if h = Config.ENQ then readRequest rest
      else if h = Config.ACK then readAck rest
      else if h = Config.NAK then readNak rest
      else none
  match i with
  | some i => .ok i
  | none => .error .notAFrame

/-- The decoder: every request is an instruction or is rejected by name. -/
def decode : Request → Except DecodeError Instr
  | .command r => decodeCommand r
  | .producer op v => decodeProducer op v
  | .line bytes => decodeLine bytes

/-- The 4-bit code of a device type, R99. -/
def deviceCode : DeviceType → BitVec 4
  | .p => 0 | .m => 1 | .k => 2 | .f => 3 | .t => 4 | .c => 5
  | .l => 6 | .n => 7 | .d => 8 | .u => 9 | .z => 10 | .r => 11

/-- The 3-bit code of a size marking, R108. -/
def sizeCode : SizeMark → BitVec 3
  | .bit => 0 | .byte => 1 | .word => 2 | .dword => 3 | .lword => 4

/-- The 2-bit kind tag of a request, R121. -/
def kindCode : Command → BitVec 2
  | .rss _ => 0 | .wss _ _ => 1 | .rsb _ => 2 | .wsb _ _ => 3

/-- The record that carries an operation with a descriptor; operands the operation does not have are zero. -/
def recordOf (op : BitVec 4) (kind : BitVec 2) (c : Command) : CommandRecord :=
  { op := op, kind := kind, station := c.desc.station, dev := deviceCode c.desc.dev,
    size := sizeCode c.desc.size, addr := c.desc.addr, count := c.desc.count, data := c.payload }

/-- The encoder: what an agent presents to have the instruction run. -/
def encode : Instr → Request
  | .encRss d => .command (recordOf 0 0 (.rss d))
  | .encWss d data => .command (recordOf 1 0 (.wss d data))
  | .encRsb d => .command (recordOf 2 0 (.rsb d))
  | .encWsb d data => .command (recordOf 3 0 (.wsb d data))
  | .compact => .command { op := 4 }
  | .send => .command { op := 5 }
  | .dispatch c => .command (recordOf 6 (kindCode c) c)
  | .rxArm => .command { op := 7 }
  | .rxWait => .command { op := 8 }
  | .decodeOp => .command { op := 9 }
  | .rbWrite .host v => .command { op := 10, v := v }
  | .rbWrite .producer v => .producer 10 v
  | .rbRead => .command { op := 11 }
  | .rbFlush => .command { op := 12 }
  | .reqRss d => .line (wireRequest (.rss d))
  | .reqWss d data => .line (wireRequest (.wss d data))
  | .reqRsb d => .line (wireRequest (.rsb d))
  | .reqWsb d data => .line (wireRequest (.wsb d data))
  | .respAck f => .line (wireAck f)
  | .respNak f => .line (wireNak f)
  | .ctlEnq => .line [Config.ENQ]
  | .ctlAck => .line [Config.ACK]
  | .ctlNak => .line [Config.NAK]
  | .ctlEot => .line [Config.EOT]
  | .ctlEtx => .line [Config.ETX]

/-- `n` bytes of a word, the most significant first: the order in which spec/opcode_table.json numbers a wire frame
(its note: "first byte most significant"). -/
def bytesMsbFirst : Nat → Nat → List Byte
  | 0, _ => []
  | n + 1, w => BitVec.ofNat 8 (w / 256 ^ n) :: bytesMsbFirst n w

/-- The request a word of spec/opcode_table.json stands for, with every operand bit the word does not give at zero. A
word of at most one byte whose value is below 16 is a code of the 4-bit command port; any other is bytes of the line
(log entry 11: several rows of the table share a one-byte word). -/
def tableRequest (nbits w : Nat) : Request :=
  if nbits ≤ 8 ∧ w < 16 then .command { op := BitVec.ofNat 4 w }
  else .line (bytesMsbFirst ((nbits + 7) / 8) w)

/-- The instruction the decoder reads from a word of spec/opcode_table.json. -/
def decodeTableWord (nbits w : Nat) : Option Instr :=
  match decode (tableRequest nbits w) with
  | .ok i => some i
  | .error _ => none

end Sys2Proof
end

