-- ==== Sys2Proof/Machine/State.lean ====
section
/-! DEFINITION. The machine's state: every element of spec/10_state.md (R23 to R38, R45), the parameters it runs
under, what it has returned, and the agents' schedule; its reset value (R46); and the ways a step can stop. State is
plain data. -/

namespace Sys2Proof.Machine

/-- A byte store (R23 to R26, R60): pairs of an index and the byte written there, indices strictly rising. An index
that is not listed holds no value (R44). -/
abbrev Memory := List Host.Cell

/-- The four index spaces of R60. -/
inductive StoreName where
  | frame | txbuf | rxbuf | ring
deriving DecidableEq, Repr

/-- Where the current request stands in the receive-synchronisation protocol, R34. The reserved codes 6 and 7 have no
constructor. -/
inductive Sync where
  | idle | armed | sent | waiting | completed | timedOut
deriving DecidableEq, Repr

/-- The blocking operation the command port is inside, R35. The reserved code 3 has no constructor. -/
inductive HostOp where
  | idle | sending | waiting
deriving DecidableEq, Repr

/-- The status codes of R126. The reserved code 7 has no constructor. -/
inductive Status where
  | ok | terminatorMissing | transmitTimeout | responseTimeout | malformedResponse | rbFull | rbEmpty
deriving DecidableEq, Repr

/-- The 3-bit code of `SYNC`, R34. -/
def Sync.code : Sync → BitVec 3
  | .idle => 0 | .armed => 1 | .sent => 2 | .waiting => 3 | .completed => 4 | .timedOut => 5

/-- The 2-bit code of `HOSTOP`, R35. -/
def HostOp.code : HostOp → BitVec 2
  | .idle => 0 | .sending => 1 | .waiting => 2

/-- The 3-bit code of a status, R126. -/
def Status.code : Status → BitVec 3
  | .ok => 0 | .terminatorMissing => 1 | .transmitTimeout => 2 | .responseTimeout => 3
  | .malformedResponse => 4 | .rbFull => 5 | .rbEmpty => 6

/-- What an operation hands back beside its status (R120): nothing, a byte (`RB.READ`) or a response record
(`DECODE`). -/
inductive Payload where
  | none
  | byte (v : Byte)
  | response (r : Response)
deriving DecidableEq, Repr

/-- One return to the HOST (R9 `return`, R126). -/
structure Return where
  status : Status
  value : Payload := .none
deriving DecidableEq, Repr

/-- The ways a step stops with a fault. -/
inductive Fault where
  /-- A step reads a byte of a store that nothing has written since reset: `COMPACT` before any `ENC.*` (R44, U8),
  the one case a run can reach. Safe: the spec asks for it. -/
  | unwrittenByte (store : StoreName) (index : Nat)
  /-- A step would use an index outside its store (R65). Only states that no run reaches raise it, or an
  implementation whose parameters break R5. Safe: the model stops. -/
  | outOfRange (store : StoreName) (index : Nat)
deriving DecidableEq, Repr

/-- The ways a step is refused. -/
inductive Refusal where
  /-- An instruction that has no meaning in this model; no arm of exec uses it. Safe. -/
  | notModelled (mnemonic : String)
  /-- A HOST operation while `HOSTOP` is not `IDLE`: the HOST is blocked and its step is not enabled (R35, U6). Safe:
  the spec has no such step. -/
  | hostBlocked
  /-- An address text longer than `NAME_CAP - 3` (R140, U1). Safe: the spec gives it no behaviour. -/
  | addressTooLong
  /-- A payload longer than `DATA_CAP` (R140, U1). Safe: the spec gives it no behaviour. -/
  | payloadTooLong
  /-- A reserved operation code at the command port (R127, U2). Safe. -/
  | reservedOperation
  /-- A reserved device code in a descriptor (R127, U2). Safe. -/
  | reservedDevice
  /-- A reserved size code in a descriptor (R127, U2). Safe. -/
  | reservedSize
  /-- The PRODUCER presents an operation other than `RB.WRITE` (R120, R274). Safe. -/
  | producerPort
  /-- The schedule names an agent's step that is not enabled: `!TXACC` outside its condition (R178), or a completion
  step of the HOST while no blocking operation is in progress (R176, R177, R197, R198). Safe: the spec has no such
  step. -/
  | stepNotEnabled
deriving DecidableEq, Repr

/-- The state of the codec and its surroundings. -/
structure State where
  /-- The parameters of R5, which no step changes (R39a; log entry 3). -/
  cfg : Config
  /-- `FRAME`, R23. -/
  frame : Memory
  /-- `TXBUF`, R24. -/
  txbuf : Memory
  /-- `RXBUF`, R25. -/
  rxbuf : Memory
  /-- `RING`, R26. -/
  ring : Memory
  /-- `TX_LEN`, R27. -/
  txLen : Nat
  /-- `TX_IDX`, R28. -/
  txIdx : Nat
  /-- `TX_T0`, R29. -/
  txT0 : Nat
  /-- `RX_LEN`, R30. -/
  rxLen : Nat
  /-- `RX_ARMED`, R31. -/
  rxArmed : Bool
  /-- `FRAME_ARRIVED`, R32. -/
  frameArrived : Bool
  /-- `RX_T0`, R33. -/
  rxT0 : Nat
  /-- `SYNC`, R34. -/
  sync : Sync
  /-- `HOSTOP`, R35. -/
  hostop : HostOp
  /-- `HEAD`, R36. -/
  head : Nat
  /-- `TAIL`, R37. -/
  tail : Nat
  /-- `NOW`, R38, R276: the reading of the clock. -/
  now : Nat
  /-- `TX_TRACE`, R45: the bytes emitted since reset, in order. -/
  txTrace : List Byte
  /-- What the operations have returned to the HOST since reset, in order: an observation that no rule reads (R39c,
  R260; log entry 7). -/
  hostReturns : List Return
  /-- The statuses returned at the PRODUCER's port since reset, in order: an observation (R270; log entry 7). -/
  producerReturns : List Status
  /-- The agents' next steps, the first to be taken first: the interleaving, as data (R10, R20; log entry 1). -/
  pending : List Stimulus
deriving DecidableEq, Repr

/-- The state R46 gives after reset, under given parameters and clock reading. The stores hold no value; `TX_T0` and
`RX_T0`, which R46 leaves unspecified, are 0 (DESIGN CHOICE, log entry 5). -/
def State.resetWith (cfg : Config) (now : Nat) (pending : List Stimulus) : State :=
  { cfg := cfg, frame := [], txbuf := [], rxbuf := [], ring := [],
    txLen := 0, txIdx := 0, txT0 := 0, rxLen := 0, rxArmed := false, frameArrived := false, rxT0 := 0,
    sync := .idle, hostop := .idle, head := 0, tail := 0, now := now,
    txTrace := [], hostReturns := [], producerReturns := [], pending := pending }

/-- The machine right after reset: R46 under the default parameters of R5, the clock at 0 (log entries 3 and 6), no
agent's step presented. -/
def State.reset : State := State.resetWith {} 0 []

end Sys2Proof.Machine
end

