-- ==== Sys2Proof/Machine/Ops.lean ====
section
/-! DEFINITION. The named operations over stores, registers and outcomes that every meaning is written with: reading
and writing a byte of a store (R9, R44, R60, R65), sequencing, returning a status to an agent (R9, R126, R260; the
codec's counterpart of taking an exception, there being no trap: R272), and taking the next entry of the agents'
schedule. -/

namespace Sys2Proof.Machine

/-! ## Stores -/

/-- The byte at an index, if one has been written there (R44). -/
def Memory.read : Memory → Nat → Option Byte
  | [], _ => none
  | (k, b) :: m, a => if k = a then some b else Memory.read m a

/-- Write one byte, keeping the indices strictly rising. -/
def Memory.write : Memory → Nat → Byte → Memory
  | [], a, v => [(a, v)]
  | (k, b) :: m, a, v =>
    if a < k then (a, v) :: (k, b) :: m
    else if a = k then (a, v) :: m
    else (k, b) :: Memory.write m a v

/-- Write a byte sequence from an index upwards, the first byte at the lowest index (R9 `MemWrite`, R62). -/
def Memory.writeBytes : Memory → Nat → List Byte → Memory
  | m, _, [] => m
  | m, a, b :: bs => Memory.writeBytes (Memory.write m a b) (a + 1) bs

/-- The store that holds exactly the given bytes, from an index upwards. -/
def Memory.ofBytes : Nat → List Byte → Memory
  | _, [] => []
  | a, b :: bs => (a, b) :: Memory.ofBytes (a + 1) bs

/-- The indices of a store lie above `lo` and rise strictly. -/
def Memory.rising : Nat → Memory → Bool
  | _, [] => true
  | lo, (k, _) :: m => decide (lo ≤ k) && Memory.rising (k + 1) m

/-- The canonical form: indices strictly rising. No listed byte equals what an unlisted index reads as, since an
unlisted index reads as no value at all. -/
def Memory.wf (m : Memory) : Bool := Memory.rising 0 m

/-- Every listed index is below a bound. -/
def Memory.within (cap : Nat) (m : Memory) : Bool := m.all fun c => decide (c.1 < cap)

/-- The contents of a store. -/
def State.store (s : State) : StoreName → Memory
  | .frame => s.frame
  | .txbuf => s.txbuf
  | .rxbuf => s.rxbuf
  | .ring => s.ring

/-- The size of a store (R60): `TXBUF` is one byte longer than a frame (R24). -/
def State.storeCap (s : State) : StoreName → Nat
  | .frame => s.cfg.frameCap
  | .txbuf => s.cfg.frameCap + 1
  | .rxbuf => s.cfg.frameCap
  | .ring => s.cfg.ringCap

/-- Replace the contents of a store. -/
def State.setStore (s : State) : StoreName → Memory → State
  | .frame, m => { s with frame := m }
  | .txbuf, m => { s with txbuf := m }
  | .rxbuf, m => { s with rxbuf := m }
  | .ring, m => { s with ring := m }

/-- `S[i]` (R9): outside the store, or on a byte that holds no value, the read faults (R44, R65). -/
def readStore (n : StoreName) (i : Nat) (s : State) : Except Fault Byte :=
  if i < s.storeCap n then
    match (s.store n).read i with
    | some b => .ok b
    | none => .error (.unwrittenByte n i)
  else .error (.outOfRange n i)

/-- `S[i] <- v` (R9): outside the store the write faults (R65). -/
def writeStore (n : StoreName) (i : Nat) (v : Byte) (s : State) : Except Fault State :=
  if i < s.storeCap n then .ok (s.setStore n ((s.store n).write i v)) else .error (.outOfRange n i)

/-- `MemRead(S, i, k)` (R9): `k` bytes, the lowest index first. -/
def readRange (n : StoreName) (s : State) : Nat → Nat → Except Fault (List Byte)
  | _, 0 => .ok []
  | i, k + 1 =>
    match readStore n i s with
    | .ok b =>
      match readRange n s (i + 1) k with
      | .ok bs => .ok (b :: bs)
      | .error f => .error f
    | .error f => .error f

/-- `MemWrite(S, i, n, v)` (R9): all of the sequence lies in the store, or the write faults and nothing is
written. -/
def writeRange (n : StoreName) (i : Nat) (bs : List Byte) (s : State) : Except Fault State :=
  if i + bs.length ≤ s.storeCap n then .ok (s.setStore n ((s.store n).writeBytes i bs))
  else .error (.outOfRange n (s.storeCap n))

/-! ## Outcomes -/

/-- The outcome of a step. -/
abbrev Outcome := Host.Outcome State Fault Refusal

/-- Run the second part of an operation on the state the first part leaves; a stop of the first part is the stop of
the whole. -/
def andThen (o : Outcome) (k : State → Outcome) : Outcome :=
  match o with
  | .next s => k s
  | .fault f => .fault f
  | .refused r => .refused r

/-- Go on with the value of an access to a store, or stop with its fault. -/
def withValue {α : Type} (x : Except Fault α) (k : α → Outcome) : Outcome :=
  match x with
  | .ok a => k a
  | .error f => .fault f

/-- A HOST operation: its step is enabled only while `HOSTOP` is `IDLE` (R35, U6). -/
def hostStep (s : State) (k : State → Outcome) : Outcome :=
  match s.hostop with
  | .idle => k s
  | .sending => .refused .hostBlocked
  | .waiting => .refused .hostBlocked

/-! ## Returning -/

/-- `return <STATUS>` and `return <STATUS>, v` to the HOST (R9, R126, R260): no other state changes. -/
def returnHost (s : State) (st : Status) (v : Payload := .none) : State :=
  { s with hostReturns := s.hostReturns ++ [{ status := st, value := v }] }

/-- `return <STATUS>` to the PRODUCER (R270). -/
def returnProducer (s : State) (st : Status) : State :=
  { s with producerReturns := s.producerReturns ++ [st] }

/-- `return <STATUS>` at the port a ring write came from (R241). -/
def returnAt (port : Port) (s : State) (st : Status) : State :=
  match port with
  | .host => returnHost s st
  | .producer => returnProducer s st

/-- The return of an operation whose step changes nothing else. -/
def finish (s : State) (st : Status) (v : Payload := .none) : Outcome := .next (returnHost s st v)

/-! ## The schedule -/

/-- Replace the agents' schedule. -/
def State.withPending (s : State) (p : List Stimulus) : State := { s with pending := p }

/-- The next entry of the agents' schedule and the state with that entry taken. -/
def fetch (s : State) : Option (Stimulus × State) :=
  match s.pending with
  | [] => none
  | x :: rest => some (x, s.withPending rest)

end Sys2Proof.Machine
end

