-- ==== Sys2Proof/Machine/Flags.lean ====
section
/-! DEFINITION. The conditions operations and events test. The codec has no arithmetic flag (R41): its two stored
flags are `RX_ARMED` and `FRAME_ARRIVED`; full, empty, the deadlines and the enabling conditions are computed at each
step, here. -/

namespace Sys2Proof.Machine

/-- `elapsed(t1, t0) = (t1 - t0) mod 2^CLOCK_WIDTH` (R8). -/
def elapsed (cfg : Config) (t1 t0 : Nat) : Nat :=
  (t1 + (cfg.clockSpan - t0 % cfg.clockSpan)) % cfg.clockSpan

/-- `(i + 1) mod RING_CAP`, the slot after a slot (R240). -/
def nextSlot (cfg : Config) (i : Nat) : Nat := (i + 1) % cfg.ringCap

/-- The ring is empty: `HEAD = TAIL` (R240). -/
abbrev ringEmpty (s : State) : Prop := s.head = s.tail

/-- The ring is full: `(HEAD + 1) mod RING_CAP = TAIL` (R240). -/
abbrev ringFull (s : State) : Prop := nextSlot s.cfg s.head = s.tail

/-- The number of bytes the ring holds, `(HEAD - TAIL) mod RING_CAP` (R240). -/
def ringUsed (s : State) : Nat := (s.head + (s.cfg.ringCap - s.tail % s.cfg.ringCap)) % s.cfg.ringCap

/-- The peripheral may take a byte: `HOSTOP = SENDING` and `TX_IDX < TX_LEN` (R178). -/
abbrev txAcceptEnabled (s : State) : Prop := s.hostop = .sending ∧ s.txIdx < s.txLen

/-- `SEND` may complete with success (R176). -/
abbrev sendDone (s : State) : Prop := s.hostop = .sending ∧ s.txIdx = s.txLen

/-- `SEND` may complete with a timeout (R177). -/
abbrev sendTimedOut (s : State) : Prop :=
  s.hostop = .sending ∧ s.txIdx < s.txLen ∧ s.cfg.txTimeoutMs ≤ elapsed s.cfg s.now s.txT0

/-- `RX.WAIT` may complete with success (R197). -/
abbrev waitDone (s : State) : Prop := s.hostop = .waiting ∧ s.frameArrived = true

/-- `RX.WAIT` may complete with a timeout (R198). -/
abbrev waitTimedOut (s : State) : Prop :=
  s.hostop = .waiting ∧ s.frameArrived = false ∧ s.cfg.rxTimeoutMs ≤ elapsed s.cfg s.now s.rxT0

/-- The byte completes the armed receive: the buffer is full (R194). -/
abbrev rxFull (s : State) : Prop := s.rxLen = s.cfg.frameCap

end Sys2Proof.Machine
end

