-- ==== Sys2Proof/Machine/Encoder.lean ====
section
/-! DEFINITION. `ENC.RSS`, `ENC.WSS`, `ENC.RSB`, `ENC.WSB` (spec/40_frame_encoder.md, R140 to R148): one shared
operation that writes all of `FRAME`, and one meaning per command kind. -/

namespace Sys2Proof.Machine

/-- The encode stage (R140, R141): a descriptor outside the bounds of R140 is refused (U1); otherwise all `FRAME_CAP`
bytes of `FRAME` are written with the view of the kind. The writes are one step, so their order cannot be seen
(R147). -/
def encodeFrame (c : Command) (s : State) : Outcome :=
  if ¬ c.desc.fits s.cfg then .refused .addressTooLong
  else if s.cfg.dataCap < c.payload.length then .refused .payloadTooLong
  else if s.cfg.frameCap < (requestView s.cfg c).length then .fault (.outOfRange .frame s.cfg.frameCap)
  else .next { s with frame := Memory.ofBytes 0 (frameImage s.cfg c) }

/-- An `ENC.*` operation: encode and return `OK`; nothing but `FRAME` is written. -/
def encodeOperation (c : Command) (s : State) : Outcome :=
  hostStep s fun s => andThen (encodeFrame c s) fun s => finish s .ok

/-- `ENC.RSS`, R142. -/
def execEncRss (d : Descriptor) (s : State) : Outcome := encodeOperation (.rss d) s

/-- `ENC.WSS`, R143. -/
def execEncWss (d : Descriptor) (data : List Byte) (s : State) : Outcome := encodeOperation (.wss d data) s

/-- `ENC.RSB`, R144. -/
def execEncRsb (d : Descriptor) (s : State) : Outcome := encodeOperation (.rsb d) s

/-- `ENC.WSB`, R145. -/
def execEncWsb (d : Descriptor) (data : List Byte) (s : State) : Outcome := encodeOperation (.wsb d data) s

end Sys2Proof.Machine
end

