-- ==== Sys2Proof/Machine/Compactor.lean ====
section
/-! DEFINITION. `COMPACT` (spec/41_frame_compactor.md, R160 to R166). -/

namespace Sys2Proof.Machine

/-- The scan of R160 over the `k` bytes of `FRAME` from index `i`: the non-zero bytes in order up to and including the
first EOT, and whether an EOT was met. A byte that holds no value faults when the scan comes to it (R44, U8). -/
def scanFrame (s : State) : Nat → Nat → Except Fault (List Byte × Bool)
  | _, 0 => .ok ([], false)
  | i, k + 1 =>
    match readStore .frame i s with
    | .error f => .error f
    | .ok b =>
      if b = Config.EOT then .ok ([b], true)
      else
        match scanFrame s (i + 1) k with
        | .error f => .error f
        | .ok (out, found) => if b = 0x00#8 then .ok (out, found) else .ok (b :: out, found)

/-- The compact stage (R160): on success `TXBUF` holds the bytes copied and the terminator after them and `TX_LEN`
counts the bytes; on failure the bytes copied so far stay, with no terminator, and `TX_LEN` is 0 (R261). Bytes of
`TXBUF` above those written keep their values. -/
def compactFrame (s : State) : Except Fault (State × Status) :=
  match scanFrame s 0 s.cfg.frameCap with
  | .error f => .error f
  | .ok (out, true) =>
    match writeRange .txbuf 0 (out ++ [0x00#8]) s with
    | .error f => .error f
    | .ok s => .ok ({ s with txLen := out.length }, .ok)
  | .ok (out, false) =>
    match writeRange .txbuf 0 out s with
    | .error f => .error f
    | .ok s => .ok ({ s with txLen := 0 }, .terminatorMissing)

/-- `COMPACT`, R160. -/
def execCompact (s : State) : Outcome :=
  hostStep s fun s => withValue (compactFrame s) fun r => finish r.1 r.2

end Sys2Proof.Machine
end

