-- ==== Sys2Proof/Machine/Transport.lean ====
section
/-! DEFINITION. `SEND`, `DISPATCH`, the event `!TXACC` and the completion steps of a send
(spec/42_dispatch_and_send.md, R170 to R180). -/

namespace Sys2Proof.Machine

/-- The start step of a send (R175). -/
def startSend (s : State) : State := { s with txIdx := 0, txT0 := s.now, hostop := .sending }

/-- `SEND`, R175: the start step; the operation returns at a completion step (R176, R177). -/
def execSend (s : State) : Outcome := hostStep s fun s => .next (startSend s)

/-- `DISPATCH`, R170: encode, compact and the start step of the send, in one step. A failed compaction returns
`TERMINATOR_MISSING` and transmits nothing (R172). -/
def execDispatch (c : Command) (s : State) : Outcome :=
  hostStep s fun s => andThen (encodeFrame c s) fun s => withValue (compactFrame s) fun r =>
    match r.2 with
    | .ok => .next (startSend r.1)
    | st => finish r.1 st

/-- `emit` of the next byte (R178, R9). -/
def emitByte (b : Byte) (s : State) : State := { s with txTrace := s.txTrace ++ [b], txIdx := s.txIdx + 1 }

/-- `!TXACC`, R178: enabled only while a send is in progress and bytes remain. -/
def eventTxAccept (s : State) : Outcome :=
  if txAcceptEnabled s then withValue (readStore .txbuf s.txIdx s) fun b => .next (emitByte b s)
  else .refused .stepNotEnabled

/-- Completion of a send with success (R176): `SYNC` moves from `ARMED` to `SENT` and from no other stage. -/
def completeSend (s : State) : State :=
  returnHost { s with hostop := .idle, sync := if s.sync = .armed then .sent else s.sync } .ok

/-- Completion of a send with a timeout (R177): what has been emitted stays emitted. -/
def timeoutSend (s : State) : State := returnHost { s with hostop := .idle } .transmitTimeout

end Sys2Proof.Machine
end

