-- ==== Sys2Proof/Machine/Receive.lean ====
section
/-! DEFINITION. `RX.ARM`, `RX.WAIT`, the events `!RX` and `!IDLE` and the completion steps of a wait
(spec/43_receive_sync.md, R190 to R202). -/

namespace Sys2Proof.Machine

/-- The four writes of `RX.ARM` (R191); `RXBUF` is not cleared. -/
def armReceive (s : State) : State :=
  { s with frameArrived := false, rxLen := 0, rxArmed := true, sync := .armed }

/-- `RX.ARM`, R191. -/
def execRxArm (s : State) : Outcome := hostStep s fun s => finish (armReceive s) .ok

/-- The start step of a wait (R196). -/
def startWait (s : State) : State := { s with rxT0 := s.now, sync := .waiting, hostop := .waiting }

/-- `RX.WAIT`, R196: the start step; the operation returns at a completion step (R197, R198). -/
def execRxWait (s : State) : Outcome := hostStep s fun s => .next (startWait s)

/-- Completion of a wait with success (R197): `FRAME_ARRIVED` stays set. -/
def completeWait (s : State) : State := returnHost { s with sync := .completed, hostop := .idle } .ok

/-- Completion of a wait with a timeout (R198): the receive stays armed. -/
def timeoutWait (s : State) : State := returnHost { s with sync := .timedOut, hostop := .idle } .responseTimeout

/-- The receive completes: the flag is set and the receive is no longer live (R194, R195, R202). -/
def completeReceive (s : State) : State := { s with frameArrived := true, rxArmed := false }

/-- A byte has been stored: `RX_LEN` counts it, and the byte that fills the buffer completes the receive (R194). -/
def countReceived (s : State) : State :=
  let s := { s with rxLen := s.rxLen + 1 }
  if rxFull s then completeReceive s else s

/-- `!RX b` as an access to the stores (R194): a byte that arrives while no receive is armed is dropped. -/
def receiveByte (b : Byte) (s : State) : Except Fault State :=
  if s.rxArmed = true then
    match writeStore .rxbuf s.rxLen b s with
    | .error f => .error f
    | .ok s => .ok (countReceived s)
  else .ok s

/-- `!RX b`, R194. -/
def eventRx (b : Byte) (s : State) : Outcome := withValue (receiveByte b s) .next

/-- `!IDLE`, R195: ignored before the first byte and while no receive is armed. -/
def eventIdle (s : State) : Outcome :=
  if s.rxArmed = true ∧ 0 < s.rxLen then .next (completeReceive s) else .next s

/-- A byte sequence arrives: one `!RX` for each byte, the first byte first (R62, R194). -/
def receiveBytes : List Byte → State → Outcome
  | [], s => .next s
  | b :: bs, s => andThen (eventRx b s) (receiveBytes bs)

end Sys2Proof.Machine
end

