-- ==== Sys2Proof/Machine/Decoder.lean ====
section
/-! DEFINITION. `DECODE` (spec/44_response_decoder.md, R220 to R228); the parse is `parseResponse` of
Machine/Operands.lean. -/

namespace Sys2Proof.Machine

/-- The return of `DECODE` for a parse of the buffer (R220, R223, R227). -/
def decodeReturn (s : State) : Option Response → State
  | some r => returnHost s .ok (.response r)
  | none => returnHost s .malformedResponse

/-- `DECODE`, R220: accepted in every stage of `SYNC` (U5); it writes no state. -/
def execDecode (s : State) : Outcome :=
  hostStep s fun s => withValue (readRange .rxbuf s 0 s.rxLen) fun bs =>
    .next (decodeReturn s (parseResponse s.cfg.respEnd bs))

end Sys2Proof.Machine
end

