-- ==== Sys2Proof/Machine/Ring.lean ====
section
/-! DEFINITION. `RB.WRITE`, `RB.READ`, `RB.FLUSH` (spec/45_ring_buffer.md, R240 to R246). -/

namespace Sys2Proof.Machine

/-- The effect of `RB.WRITE v` from either port (R241): a full ring reports `RB_FULL` and nothing is changed. -/
def ringWrite (port : Port) (v : Byte) (s : State) : Outcome :=
  if ringFull s then .next (returnAt port s .rbFull)
  else
    withValue (writeStore .ring s.head v s) fun t =>
      .next (returnAt port { t with head := nextSlot s.cfg s.head } .ok)

/-- `RB.WRITE`, R241: from the HOST's port while `HOSTOP` is `IDLE`, from the PRODUCER's port always. -/
def execRbWrite (port : Port) (v : Byte) (s : State) : Outcome :=
  match port with
  | .host => hostStep s (ringWrite .host v)
  | .producer => ringWrite .producer v s

/-- `RB.READ`, R242: the byte is returned and `TAIL` moves on; the slot keeps its byte. -/
def execRbRead (s : State) : Outcome :=
  hostStep s fun s =>
    if ringEmpty s then finish s .rbEmpty
    else
      withValue (readStore .ring s.tail s) fun v =>
        finish { s with tail := nextSlot s.cfg s.tail } .ok (.byte v)

/-- `RB.FLUSH`, R243: both indices to 0, the slots untouched. -/
def execRbFlush (s : State) : Outcome := hostStep s fun s => finish { s with head := 0, tail := 0 } .ok

end Sys2Proof.Machine
end

