-- ==== Sys2Proof/Machine/Wire.lean ====
section
/-! DEFINITION. The rows of the table that are bytes on the line and not operations: the request wire forms (R104), the
response wire forms (R105, R106) and the control codes (R90). The codec meets the line at the byte (D1), and the step
by which bytes of the line act on it is `!RX` (R194, R270): each of these rows means that its bytes arrive, the first
byte first (R62). A request form arrives when the codec's own request is echoed (R220). DEDUCED, log entry 9. What the
codec itself puts on the line is the effect of `!TXACC` (R178). -/

namespace Sys2Proof.Machine

/-- `REQ.RSS`, R104. -/
def execReqRss (d : Descriptor) (s : State) : Outcome := receiveBytes (wireRequest (.rss d)) s

/-- `REQ.WSS`, R104. -/
def execReqWss (d : Descriptor) (data : List Byte) (s : State) : Outcome :=
  receiveBytes (wireRequest (.wss d data)) s

/-- `REQ.RSB`, R104. -/
def execReqRsb (d : Descriptor) (s : State) : Outcome := receiveBytes (wireRequest (.rsb d)) s

/-- `REQ.WSB`, R104. -/
def execReqWsb (d : Descriptor) (data : List Byte) (s : State) : Outcome :=
  receiveBytes (wireRequest (.wsb d data)) s

/-- `RESP.ACK`, R105. -/
def execRespAck (f : AckFrame) (s : State) : Outcome := receiveBytes (wireAck f) s

/-- `RESP.NAK`, R106. -/
def execRespNak (f : NakFrame) (s : State) : Outcome := receiveBytes (wireNak f) s

/-- `ENQ`, R90. -/
def execEnq (s : State) : Outcome := receiveBytes [Config.ENQ] s

/-- `ACK`, R90. -/
def execAck (s : State) : Outcome := receiveBytes [Config.ACK] s

/-- `NAK`, R90. -/
def execNak (s : State) : Outcome := receiveBytes [Config.NAK] s

/-- `EOT`, R90. -/
def execEot (s : State) : Outcome := receiveBytes [Config.EOT] s

/-- `ETX`, R90. -/
def execEtx (s : State) : Outcome := receiveBytes [Config.ETX] s

end Sys2Proof.Machine
end

