-- ==== Sys2Proof/Machine/Events.lean ====
section
/-! DEFINITION. The steps that have no operation code (R10, R270): the clock (R276), the HOST's completion steps
(R176, R177, R197, R198), the reset (R300), and what a request that decodes to no instruction does. -/

namespace Sys2Proof.Machine

/-- `!TICK`, R276. -/
def eventTick (s : State) : Outcome := .next { s with now := (s.now + 1) % s.cfg.clockSpan }

/-- The blocked HOST looks for an enabled completion step and takes it. Success is tested before the deadline (R176,
R197, R271). With neither enabled the operation stays in progress and nothing changes: the poll of a busy wait (R196,
R285). With no operation in progress there is no such step (R35). -/
def eventHostPoll (s : State) : Outcome :=
  match s.hostop with
  | .idle => .refused .stepNotEnabled
  | .sending =>
    if sendDone s then .next (completeSend s)
    else if sendTimedOut s then .next (timeoutSend s)
    else .next s
  | .waiting =>
    if waitDone s then .next (completeWait s)
    else if waitTimedOut s then .next (timeoutWait s)
    else .next s

/-- The reset, R300: every element as in R46, `TX_TRACE` empty, a blocking operation abandoned without a return;
`NOW`, the parameters and the agents' schedule are outside the codec and stay. -/
def eventReset (s : State) : Outcome := .next (State.resetWith s.cfg s.now s.pending)

/-- An event step. -/
def runEvent (e : Event) (s : State) : Outcome :=
  match e with
  | .txAccept => eventTxAccept s
  | .rx b => eventRx b s
  | .idle => eventIdle s
  | .tick => eventTick s
  | .hostPoll => eventHostPoll s
  | .reset => eventReset s

/-- The bytes a request puts on the line towards the codec. -/
def lineBytesOf : Request → List Byte
  | .command _ => []
  | .producer _ _ => []
  | .line bytes => bytes

/-- A request that is no instruction: a reserved code or a foreign operation at the PRODUCER's port is refused by name
(R127, U2, R120); a byte sequence that is no row of the table still arrives (R194, U17: SERIAL-RX may deliver any
bytes). -/
def undecoded (e : DecodeError) (r : Request) (s : State) : Outcome :=
  match e with
  | .reservedOperation => .refused .reservedOperation
  | .reservedDevice => .refused .reservedDevice
  | .reservedSize => .refused .reservedSize
  | .producerPort => .refused .producerPort
  | .notAFrame => receiveBytes (lineBytesOf r) s

end Sys2Proof.Machine
end

