-- ==== Sys2Proof/Machine/Dispatch.lean ====
section
/-! DEFINITION. exec: one arm per constructor of Instr, each a direct call of its meaning. -/

namespace Sys2Proof.Machine

def exec (i : Instr) (s : State) : Host.Outcome State Fault Refusal :=
  match i with
  | .encRss d => Sys2Proof.Machine.execEncRss d s
  | .encWss d data => Sys2Proof.Machine.execEncWss d data s
  | .encRsb d => Sys2Proof.Machine.execEncRsb d s
  | .encWsb d data => Sys2Proof.Machine.execEncWsb d data s
  | .compact => Sys2Proof.Machine.execCompact s
  | .send => Sys2Proof.Machine.execSend s
  | .dispatch c => Sys2Proof.Machine.execDispatch c s
  | .rxArm => Sys2Proof.Machine.execRxArm s
  | .rxWait => Sys2Proof.Machine.execRxWait s
  | .decodeOp => Sys2Proof.Machine.execDecode s
  | .rbWrite port v => Sys2Proof.Machine.execRbWrite port v s
  | .rbRead => Sys2Proof.Machine.execRbRead s
  | .rbFlush => Sys2Proof.Machine.execRbFlush s
  | .reqRss d => Sys2Proof.Machine.execReqRss d s
  | .reqWss d data => Sys2Proof.Machine.execReqWss d data s
  | .reqRsb d => Sys2Proof.Machine.execReqRsb d s
  | .reqWsb d data => Sys2Proof.Machine.execReqWsb d data s
  | .respAck f => Sys2Proof.Machine.execRespAck f s
  | .respNak f => Sys2Proof.Machine.execRespNak f s
  | .ctlEnq => Sys2Proof.Machine.execEnq s
  | .ctlAck => Sys2Proof.Machine.execAck s
  | .ctlNak => Sys2Proof.Machine.execNak s
  | .ctlEot => Sys2Proof.Machine.execEot s
  | .ctlEtx => Sys2Proof.Machine.execEtx s

end Sys2Proof.Machine
end

