-- ==== Sys2Proof/Machine/Step.lean ====
section
/-! DEFINITION. One step of the machine: the agent at the head of the schedule takes its step (R10, R20). -/

namespace Sys2Proof.Machine

/-- One entry of the schedule: an event runs; a request runs as the instruction it decodes to. -/
def runStimulus (x : Stimulus) (s : State) : Host.Outcome State Fault Refusal :=
  match x with
  | .event e => runEvent e s
  | .request r =>
    match decode r with
    | .ok i => exec i s
    | .error e => undecoded e r s

/-- One step. With no step presented nothing happens (log entry 2). -/
def step (s : State) : Host.Outcome State Fault Refusal :=
  match fetch s with
  | none => .next s
  | some (x, t) => runStimulus x t

/-- The state with the instruction of a word of spec/opcode_table.json at the head of the schedule, where the next
step takes it (log entry 17). -/
def State.withFetchWord (s : State) (nbits w : Nat) : State :=
  s.withPending (.request (tableRequest nbits w) :: s.pending)

end Sys2Proof.Machine
end

