-- ==== Sys2Proof/Machine/Pseudo.lean ====
section
/-! DEFINITION. The pseudo-operations of R132 and R133 (spec/30_encoding.md): scripts of the HOST over the operations
of the command port, not operations themselves. -/

namespace Sys2Proof.Machine

/-- `TRANSACT` (R132): the next operation of the script, given what its operations have returned so far; none once it
has stopped, which it does at the first status that is not `OK` and after `DECODE`. -/
def transactNext (c : Command) : List Return → Option Instr
  | [] => some .rxArm
  | [_] => some (.dispatch c)
  | [_, sent] => if sent.status = .ok then some .rxWait else none
  | [_, _, waited] => if waited.status = .ok then some .decodeOp else none
  | _ => none

/-- The result of `TRANSACT` (R132): that of the operation it stopped at. -/
def transactResult (c : Command) (returns : List Return) : Option Return :=
  match transactNext c returns with
  | none => returns.getLast?
  | some _ => none

/-- The request of `READ_ONE` (R133): an individual read of one block. -/
def readOneCommand (station : Byte) (dev : DeviceType) (size : SizeMark) (addr : List Byte) : Command :=
  .rss { station := station, dev := dev, size := size, addr := addr, count := 1 }

/-- `READ_ONE` (R133): `TRANSACT` of that request. -/
def readOneNext (station : Byte) (dev : DeviceType) (size : SizeMark) (addr : List Byte) (returns : List Return) :
    Option Instr :=
  transactNext (readOneCommand station dev size addr) returns

end Sys2Proof.Machine
end

