-- ==== Sys2Proof/Safety.lean ====
section
/-! DEFINITION. What a good state is: the invariants of R40 (spec/10_state.md) with those the rules about unwritten
bytes (R44), the clock (R38) and the store form rest on; the content of the ring as a list (R244); and when an event
step is enabled (R20). -/

namespace Sys2Proof.Machine

/-- The four stores are in canonical form and hold nothing outside their index space (R60). -/
abbrev StoresGood (s : State) : Prop :=
  (s.frame.wf = true ∧ s.frame.within s.cfg.frameCap = true) ∧
  (s.txbuf.wf = true ∧ s.txbuf.within (s.cfg.frameCap + 1) = true) ∧
  (s.rxbuf.wf = true ∧ s.rxbuf.within s.cfg.frameCap = true) ∧
  (s.ring.wf = true ∧ s.ring.within s.cfg.ringCap = true)

/-- `FRAME` holds no value at all, or every byte of it has been written (R44, R141). -/
abbrev FrameGood (s : State) : Prop :=
  s.frame = [] ∨ ∀ i < s.cfg.frameCap, (s.frame.read i).isSome = true

/-- A byte of the compacted frame: not zero, and the EOT marker exactly at the last place (R40 f). -/
abbrev compactByte (last : Bool) (b : Byte) : Bool := decide (b ≠ 0x00#8) && (decide (b = Config.EOT) == last)

/-- R40 (e), (f), (h): the compacted frame in `TXBUF` and the progress of its transmission. -/
abbrev TransmitGood (s : State) : Prop :=
  s.txLen ≤ s.cfg.frameCap ∧ s.txIdx ≤ s.cfg.frameCap ∧
  (0 < s.txLen →
    (∀ i < s.txLen, (s.txbuf.read i).any (compactByte (decide (i + 1 = s.txLen))) = true) ∧
    s.txbuf.read s.txLen = some 0x00#8) ∧
  (s.hostop = .sending → s.txIdx ≤ s.txLen)

/-- R40 (c), (d), R44, and what a completed receive leaves (R197, R200): `FRAME_ARRIVED` is set only with a received
byte and no live receive. -/
abbrev ReceiveGood (s : State) : Prop :=
  s.rxLen ≤ s.cfg.frameCap ∧ (s.rxArmed = true → s.rxLen < s.cfg.frameCap) ∧
  (∀ i < s.rxLen, (s.rxbuf.read i).isSome = true) ∧
  (s.frameArrived = true → s.rxArmed = false ∧ 0 < s.rxLen)

/-- R40 (g): the wait of the command port and the stage of the protocol agree. -/
abbrev WaitGood (s : State) : Prop := s.hostop = .waiting ↔ s.sync = .waiting

/-- R40 (a), R44: the indices are slots and the slots between them have been written. -/
abbrev RingGood (s : State) : Prop :=
  s.head < s.cfg.ringCap ∧ s.tail < s.cfg.ringCap ∧
  ∀ k < ringUsed s, (s.ring.read ((s.tail + k) % s.cfg.ringCap)).isSome = true

/-- R29, R33, R38: the clock and the two start times are values of the clock. -/
abbrev ClockGood (s : State) : Prop :=
  s.now < s.cfg.clockSpan ∧ s.txT0 < s.cfg.clockSpan ∧ s.rxT0 < s.cfg.clockSpan

/-- The invariant: what holds in every reachable state (R40). -/
abbrev Inv (s : State) : Prop :=
  s.cfg.Valid ∧ StoresGood s ∧ FrameGood s ∧ TransmitGood s ∧ ReceiveGood s ∧ WaitGood s ∧ RingGood s ∧ ClockGood s

/-- The ring's content, oldest first (R244). -/
def ringContent (s : State) : List (Option Byte) :=
  (List.range (ringUsed s)).map fun k => s.ring.read ((s.tail + k) % s.cfg.ringCap)

/-- When an event step is enabled (R20, R178, R35): the poll while the HOST is blocked. -/
abbrev eventEnabled (e : Event) (s : State) : Prop :=
  match e with
  | .txAccept => txAcceptEnabled s
  | .rx _ => True
  | .idle => True
  | .tick => True
  | .hostPoll => s.hostop ≠ .idle
  | .reset => True

/-- A store holds a byte sequence from an index upwards. -/
abbrev Memory.holds (m : Memory) (a : Nat) (bs : List Byte) : Prop := ∀ i < bs.length, m.read (a + i) = bs[i]?

/-- A store holds 0x00 at every index from `lo` up to but not including `hi`. -/
abbrev Memory.zeros (m : Memory) (lo hi : Nat) : Prop := ∀ i < hi, lo ≤ i → m.read i = some 0x00#8

/-- Two stores agree outside `n` indices from `a` upwards. -/
abbrev Memory.sameOutside (m m' : Memory) (a n : Nat) : Prop :=
  ∀ i, i < a ∨ a + n ≤ i → m'.read i = m.read i

/-- Event steps one after another. -/
def runEvents : List Event → State → Outcome
  | [], s => .next s
  | e :: es, s => andThen (runEvent e s) (runEvents es)

/-- The `ENC.*` of a request's kind (R121). -/
def encodeInstr : Command → Instr
  | .rss d => .encRss d
  | .wss d data => .encWss d data
  | .rsb d => .encRsb d
  | .wsb d data => .encWsb d data

/-- The thirteen operations of the HOST's command port (R120); a ring write from the PRODUCER is none. -/
def isHostOperation : Instr → Bool
  | .encRss _ | .encWss _ _ | .encRsb _ | .encWsb _ _ | .compact | .send | .dispatch _ | .rxArm | .rxWait
  | .decodeOp | .rbWrite .host _ | .rbRead | .rbFlush => true
  | .rbWrite .producer _ | .reqRss _ | .reqWss _ _ | .reqRsb _ | .reqWsb _ _ | .respAck _ | .respNak _
  | .ctlEnq | .ctlAck | .ctlNak | .ctlEot | .ctlEtx => false

/-- The head of the schedule is a request that decodes to an instruction. -/
abbrev headInstr (s : State) (i : Instr) : Prop :=
  ∃ r rest, s.pending = .request r :: rest ∧ decode r = .ok i

/-- The head of the schedule is an event. -/
abbrev headEvent (s : State) (e : Event) : Prop := ∃ rest, s.pending = .event e :: rest

/-- A received character that is the image of no nibble (R224). -/
abbrev badNibble (bs : List Byte) (i : Nat) : Prop := ∃ c, bs[i]? = some c ∧ (c.toNat < 0x30 ∨ 0x3F < c.toNat)

/-- The seven causes of `MALFORMED_RESPONSE` that R227 lists, over the received bytes and `RESP_END`. -/
def malformedCause (respEnd : Byte) (bs : List Byte) : Prop :=
  bs = [] ∨
  (bs[0]? ≠ some 0x06#8 ∧ bs[0]? ≠ some 0x15#8) ∨
  (bs[0]? = some 0x06#8 ∧ bs.length < 10) ∨
  (bs[0]? = some 0x15#8 ∧ bs.length < 12) ∨
  ((bs[0]? = some 0x06#8 ∧ ∃ i ∈ [1, 2, 6, 7, 8, 9], badNibble bs i) ∨
    (bs[0]? = some 0x15#8 ∧ ∃ i ∈ [1, 2, 6, 7], badNibble bs i)) ∨
  (bs[0]? = some 0x06#8 ∧ ∃ d1 d0 n, bs[8]? = some d1 ∧ bs[9]? = some d0 ∧ unnib d1 d0 = some n ∧
    bs.length < 11 + n.toNat) ∨
  (bs[0]? = some 0x06#8 ∧ ∃ d1 d0 n, bs[8]? = some d1 ∧ bs[9]? = some d0 ∧ unnib d1 d0 = some n ∧
    11 + n.toNat ≤ bs.length ∧ bs[10 + n.toNat]? ≠ some respEnd)

/-- `(t1 - t0) mod 2^CLOCK_WIDTH` as R8 writes it, over the integers. -/
def elapsedInt (cfg : Config) (t1 t0 : Nat) : Int := ((t1 : Int) - (t0 : Int)) % (2 ^ cfg.clockWidth : Nat)

end Sys2Proof.Machine
end

