-- ==== Sys2Proof/Certificates/Slice0/Obligations.lean ====
section
/-! DEFINITION. The statements for the provers, from the numbered rules of spec/. Where a statement's conclusion is an
equation of states, every field it does not name is unchanged: the equation is the instruction's frame. -/

open Sys2Proof Sys2Proof.Machine

/-! ## Transforms and codes -/

/-- R94, R95: each half of a byte, the high one first, is added to the code of '0'. -/
def Obligations.NibbleCharactersAreHalvesPlusZero : Prop :=
  ∀ v : Byte, nib v = [BitVec.ofNat 8 (0x30 + v.toNat / 16), BitVec.ofNat 8 (0x30 + v.toNat % 16)]

/-- R96: the inverse has its value on the characters 0x30..0x3F and no value outside them. -/
def Obligations.UnnibInvertsNibAndRejectsOtherCharacters : Prop :=
  (∀ v c1 c0 : Byte, nib v = [c1, c0] → unnib c1 c0 = some v) ∧
  (∀ c1 c0 : Byte, 0x30 ≤ c1.toNat ∧ c1.toNat ≤ 0x3F ∧ 0x30 ≤ c0.toNat ∧ c0.toNat ≤ 0x3F →
    unnib c1 c0 = some (BitVec.ofNat 8 ((c1.toNat - 0x30) * 16 + (c0.toNat - 0x30)))) ∧
  (∀ c1 c0 : Byte, c1.toNat < 0x30 ∨ 0x3F < c1.toNat ∨ c0.toNat < 0x30 ∨ 0x3F < c0.toNat → unnib c1 c0 = none)

/-- R97, R98: byte addition of 0x30 modulo 256, a bijection, a digit only for 0 to 9, with its two dangerous values;
and its total inverse. -/
def Obligations.ZeroShiftWrapsAndIsInverted : Prop :=
  (∀ b : Byte, (shift0 b).toNat = (b.toNat + 0x30) % 256) ∧
  Function.Bijective shift0 ∧
  (∀ b : Byte, (0x30 ≤ (shift0 b).toNat ∧ (shift0 b).toNat ≤ 0x39) ↔ b.toNat ≤ 9) ∧
  shift0 0xD0 = 0x00 ∧ shift0 0xD4 = 0x04 ∧
  (∀ c : Byte, ((unshift0 c).toNat : Int) = ((c.toNat : Int) - 0x30) % 256) ∧
  (∀ b : Byte, unshift0 (shift0 b) = b)

/-- R99, R108: the letters of the device and size codes, and no device or size for a reserved code. -/
def Obligations.DeviceAndSizeCodesHaveTheirLetters : Prop :=
  ((List.range 12).map fun c => (deviceOfCode (BitVec.ofNat 4 c)).toOption.map devLetter) =
    [some 0x50, some 0x4D, some 0x4B, some 0x46, some 0x54, some 0x43,
     some 0x4C, some 0x4E, some 0x44, some 0x55, some 0x5A, some 0x52] ∧
  (∀ c : BitVec 4, 12 ≤ c.toNat → deviceOfCode c = .error .reservedDevice) ∧
  ((List.range 5).map fun c => (sizeOfCode (BitVec.ofNat 3 c)).toOption.map sizeLetter) =
    [some 0x58, some 0x42, some 0x57, some 0x44, some 0x4C] ∧
  (∀ c : BitVec 3, 5 ≤ c.toNat → sizeOfCode c = .error .reservedSize)

/-- R127, R120: a reserved operation, device or size code, and an operation other than `RB.WRITE` at the PRODUCER's
port, stop the step by name. -/
def Obligations.ReservedCodesStopTheStep : Prop :=
  (∀ s r rest, s.pending = .request (.command r) :: rest → 13 ≤ r.op.toNat →
    step s = .refused .reservedOperation) ∧
  (∀ s r rest, s.pending = .request (.command r) :: rest → r.op.toNat ∈ [0, 1, 2, 3, 6] → 12 ≤ r.dev.toNat →
    step s = .refused .reservedDevice) ∧
  (∀ s r rest, s.pending = .request (.command r) :: rest → r.op.toNat ∈ [0, 1, 2, 3, 6] → r.dev.toNat < 12 →
    5 ≤ r.size.toNat → step s = .refused .reservedSize) ∧
  (∀ s op v rest, s.pending = .request (.producer op v) :: rest → op.toNat ≠ 10 →
    step s = .refused .producerPort)

/-- A word of each format, written out from R120, R121, R104, R105, R106 and R90, decodes to its instruction. -/
def Obligations.SampleWordsDecode : Prop :=
  decode (.command { op := 0b0000, station := 1, dev := 0b0000, size := 0b001, addr := [0x30], count := 1 }) =
    .ok (.encRss ⟨1, .p, .byte, [0x30], 1⟩) ∧
  decode (.command { op := 0b0110, kind := 0b11, station := 255, dev := 0b1011, size := 0b001, addr := [0x37],
                     count := 3, data := [0x09, 0x0A, 0xFF] }) =
    .ok (.dispatch (.wsb ⟨255, .r, .byte, [0x37], 3⟩ [0x09, 0x0A, 0xFF])) ∧
  decode (.command { op := 0b1010, v := 0x41 }) = .ok (.rbWrite .host 0x41) ∧
  decode (.line [0x05, 0x30, 0x30, 0x52, 0x53, 0x42, 0x30, 0x37, 0x25, 0x44, 0x57, 0x31, 0x32, 0x33, 0x34, 0x30,
                 0x35, 0x04]) = .ok (.reqRsb ⟨0, .d, .word, [0x31, 0x32, 0x33, 0x34], 5⟩) ∧
  decode (.line [0x06, 0x30, 0x31, 0x52, 0x53, 0x53, 0x30, 0x31, 0x30, 0x32, 0x42, 0x64, 0x04]) =
    .ok (.respAck ⟨1, 0x52, 0x53, 0x53, 1, [0x12, 0x34], .eot⟩) ∧
  decode (.line [0x15, 0x30, 0x31, 0x52, 0x53, 0x53, 0x30, 0x31, 0x31, 0x31, 0x33, 0x32]) =
    .ok (.respNak ⟨1, 0x52, 0x53, 0x53, 1, 0x31, 0x31, 0x33, 0x32⟩) ∧
  decode (.line [0x03]) = .ok .ctlEtx

/-- Decode and encode agree on every well-formed instruction, every operand at every value its encoding admits. -/
def Obligations.DecodingAnEncodedInstructionGivesItBack : Prop :=
  ∀ (cfg : Config) (i : Instr), WellFormed cfg i → decode (encode i) = .ok i

/-- A step runs the decoded instruction: where the request at the head of the schedule decodes to an instruction, the
step is that instruction on the state with the request taken; and the word `withFetchWord` places is run so. -/
def Obligations.StepRunsTheDecodedInstruction : Prop :=
  (∀ (s : State) (r : Request) (rest : List Stimulus) (i : Instr),
    s.pending = .request r :: rest → decode r = .ok i → step s = exec i (s.withPending rest)) ∧
  (∀ (s : State) (nbits w : Nat) (i : Instr),
    decodeTableWord nbits w = some i → step (s.withFetchWord nbits w) = exec i s)

/-- The rest of a step (the model's own schedule, log entries 1, 2 and 25): an event at the head runs; bytes of the line
that are no row of the table arrive all the same; with nothing presented nothing changes. -/
def Obligations.StepRunsEventsAndForeignBytes : Prop :=
  (∀ (s : State) (e : Event) (rest : List Stimulus), s.pending = .event e :: rest →
    step s = runEvent e (s.withPending rest)) ∧
  (∀ (s : State) (bytes : List Byte) (rest : List Stimulus), s.pending = .request (.line bytes) :: rest →
    decode (.line bytes) = .error .notAFrame → step s = runEvents (bytes.map Event.rx) (s.withPending rest)) ∧
  (∀ s : State, s.pending = [] → step s = .next s)

/-! ## The frame encoder -/

/-- R142 with R100 and R141: `ENC.RSS` completes and leaves the individual read view in `FRAME`, every other byte of
`FRAME` zero, nothing else written. -/
def Obligations.EncRssWritesTheIndividualReadView : Prop :=
  ∀ (s : State) (d : Descriptor), s.cfg.Valid → s.hostop = .idle → d.addr.length + 3 ≤ s.cfg.nameCap →
    (∃ r, encode (.encRss d) = .command r ∧ r.op = 0) ∧
    ∃ t, exec (.encRss d) s = .next t ∧ t = returnHost { s with frame := t.frame } .ok ∧
      t.frame.holds 0 [0x05] ∧ t.frame.holds 1 (nib d.station) ∧ t.frame.holds 3 [0x52, 0x53, 0x53] ∧
      t.frame.holds 6 (nib d.count) ∧ t.frame.holds 8 (nib (BitVec.ofNat 8 (3 + d.addr.length))) ∧
      t.frame.holds 10 [0x25, devLetter d.dev, sizeLetter d.size] ∧ t.frame.holds 13 d.addr ∧
      t.frame.zeros (13 + d.addr.length) (10 + s.cfg.nameCap) ∧ t.frame.holds (10 + s.cfg.nameCap) [0x04] ∧
      t.frame.zeros (11 + s.cfg.nameCap) s.cfg.frameCap ∧ ∀ a, s.cfg.frameCap ≤ a → t.frame.read a = none

/-- R143 with R101 and R141: `ENC.WSS`, the individual write view. -/
def Obligations.EncWssWritesTheIndividualWriteView : Prop :=
  ∀ (s : State) (d : Descriptor) (data : List Byte), s.cfg.Valid → s.hostop = .idle →
    d.addr.length + 3 ≤ s.cfg.nameCap → data.length ≤ s.cfg.dataCap →
    (∃ r, encode (.encWss d data) = .command r ∧ r.op = 1) ∧
    ∃ t, exec (.encWss d data) s = .next t ∧ t = returnHost { s with frame := t.frame } .ok ∧
      t.frame.holds 0 [0x05] ∧ t.frame.holds 1 (nib d.station) ∧ t.frame.holds 3 [0x57, 0x53, 0x53] ∧
      t.frame.holds 6 (nib d.count) ∧ t.frame.holds 8 (nib (BitVec.ofNat 8 (3 + d.addr.length))) ∧
      t.frame.holds 10 [0x25, devLetter d.dev, sizeLetter d.size] ∧ t.frame.holds 13 d.addr ∧
      t.frame.zeros (13 + d.addr.length) (10 + s.cfg.nameCap) ∧
      t.frame.holds (10 + s.cfg.nameCap) (data.map shift0) ∧
      t.frame.zeros (10 + s.cfg.nameCap + data.length) (10 + s.cfg.nameCap + s.cfg.dataCap) ∧
      t.frame.holds (10 + s.cfg.nameCap + s.cfg.dataCap) [0x04] ∧
      t.frame.zeros (11 + s.cfg.nameCap + s.cfg.dataCap) s.cfg.frameCap ∧
      ∀ a, s.cfg.frameCap ≤ a → t.frame.read a = none

/-- R144 with R102 and R141: `ENC.RSB`, the continuous read view. -/
def Obligations.EncRsbWritesTheContinuousReadView : Prop :=
  ∀ (s : State) (d : Descriptor), s.cfg.Valid → s.hostop = .idle → d.addr.length + 3 ≤ s.cfg.nameCap →
    (∃ r, encode (.encRsb d) = .command r ∧ r.op = 2) ∧
    ∃ t, exec (.encRsb d) s = .next t ∧ t = returnHost { s with frame := t.frame } .ok ∧
      t.frame.holds 0 [0x05] ∧ t.frame.holds 1 (nib d.station) ∧ t.frame.holds 3 [0x52, 0x53, 0x42] ∧
      t.frame.holds 6 (nib (BitVec.ofNat 8 (3 + d.addr.length))) ∧
      t.frame.holds 8 [0x25, devLetter d.dev, sizeLetter d.size] ∧ t.frame.holds 11 d.addr ∧
      t.frame.zeros (11 + d.addr.length) (8 + s.cfg.nameCap) ∧
      t.frame.holds (8 + s.cfg.nameCap) (nib d.count) ∧ t.frame.holds (10 + s.cfg.nameCap) [0x04] ∧
      t.frame.zeros (11 + s.cfg.nameCap) s.cfg.frameCap ∧ ∀ a, s.cfg.frameCap ≤ a → t.frame.read a = none

/-- R145 with R103 and R141: `ENC.WSB`, the continuous write view. -/
def Obligations.EncWsbWritesTheContinuousWriteView : Prop :=
  ∀ (s : State) (d : Descriptor) (data : List Byte), s.cfg.Valid → s.hostop = .idle →
    d.addr.length + 3 ≤ s.cfg.nameCap → data.length ≤ s.cfg.dataCap →
    (∃ r, encode (.encWsb d data) = .command r ∧ r.op = 3) ∧
    ∃ t, exec (.encWsb d data) s = .next t ∧ t = returnHost { s with frame := t.frame } .ok ∧
      t.frame.holds 0 [0x05] ∧ t.frame.holds 1 (nib d.station) ∧ t.frame.holds 3 [0x57, 0x53, 0x42] ∧
      t.frame.holds 6 (nib (BitVec.ofNat 8 (3 + d.addr.length))) ∧
      t.frame.holds 8 [0x25, devLetter d.dev, sizeLetter d.size] ∧ t.frame.holds 11 d.addr ∧
      t.frame.zeros (11 + d.addr.length) (8 + s.cfg.nameCap) ∧ t.frame.holds (8 + s.cfg.nameCap) (nib d.count) ∧
      t.frame.holds (10 + s.cfg.nameCap) (data.map shift0) ∧
      t.frame.zeros (10 + s.cfg.nameCap + data.length) (10 + s.cfg.nameCap + s.cfg.dataCap) ∧
      t.frame.holds (10 + s.cfg.nameCap + s.cfg.dataCap) [0x04] ∧
      t.frame.zeros (11 + s.cfg.nameCap + s.cfg.dataCap) s.cfg.frameCap ∧
      ∀ a, s.cfg.frameCap ≤ a → t.frame.read a = none

/-- R140, U1: an address text or a payload outside the bounds stops `ENC.*` and `DISPATCH` by name. -/
def Obligations.DescriptorsOutOfBoundsAreRefused : Prop :=
  ∀ (s : State) (c : Command), s.hostop = .idle →
    (s.cfg.nameCap < c.desc.addr.length + 3 →
      exec (encodeInstr c) s = .refused .addressTooLong ∧ exec (.dispatch c) s = .refused .addressTooLong) ∧
    (c.desc.addr.length + 3 ≤ s.cfg.nameCap → s.cfg.dataCap < c.payload.length →
      exec (encodeInstr c) s = .refused .payloadTooLong ∧ exec (.dispatch c) s = .refused .payloadTooLong)

/-- R35, U6: no operation of the HOST's command port runs while a blocking one is in progress; the PRODUCER's ring
write and the bytes of the line are not held up. -/
def Obligations.HostOperationsAreBlockedWhileOneIsInProgress : Prop :=
  ∀ (s : State) (i : Instr), s.hostop ≠ .idle →
    (isHostOperation i = true → exec i s = .refused .hostBlocked) ∧
    (isHostOperation i = false → exec i s ≠ .refused .hostBlocked)

/-- R141, R66: what an `ENC.*` leaves in `FRAME` depends on its operands (and the parameters) alone. The spec infers it
from these two in 40_frame_encoder.md, R147. -/
def Obligations.EncodedFrameDependsOnOperandsAlone : Prop :=
  ∀ (c : Command) (s s' t t' : State), s.cfg = s'.cfg →
    exec (encodeInstr c) s = .next t → exec (encodeInstr c) s' = .next t' → t.frame = t'.frame

/-! ## The compactor -/

/-- R160: `COMPACT` over a written `FRAME` completes. With an EOT in `FRAME`: the non-zero bytes up to and including the
first one, then the terminator, `TX_LEN` their count, `OK`. Without: the non-zero bytes, no terminator, `TX_LEN` 0,
`TERMINATOR_MISSING`. Nothing else changes. -/
def Obligations.CompactCopiesNonZeroBytesToTheFirstEot : Prop :=
  (∀ r : CommandRecord, r.op = 4 → decode (.command r) = .ok .compact) ∧
  ∀ (s : State) (bs : List Byte), s.hostop = .idle → bs.length = s.cfg.frameCap → s.frame.holds 0 bs →
    (Config.EOT ∈ bs →
      ∃ t, exec .compact s = .next t ∧
        let out := (bs.takeWhile fun b => decide (b ≠ Config.EOT)).filter (fun b => decide (b ≠ 0x00#8)) ++ [Config.EOT]
        t = returnHost { s with txbuf := t.txbuf, txLen := out.length } .ok ∧
          t.txbuf.holds 0 (out ++ [0x00#8]) ∧ s.txbuf.sameOutside t.txbuf 0 (out.length + 1)) ∧
    (Config.EOT ∉ bs →
      ∃ t, exec .compact s = .next t ∧
        let out := bs.filter (fun b => decide (b ≠ 0x00#8))
        t = returnHost { s with txbuf := t.txbuf, txLen := 0 } .terminatorMissing ∧
          t.txbuf.holds 0 out ∧ s.txbuf.sameOutside t.txbuf 0 out.length)

/-- R44, U8: a scan that comes to a byte nothing has written stops there, by name. -/
def Obligations.CompactFaultsAtTheFirstUnwrittenByte : Prop :=
  ∀ (s : State) (bs : List Byte), s.hostop = .idle → bs.length < s.cfg.frameCap → s.frame.holds 0 bs →
    Config.EOT ∉ bs → s.frame.read bs.length = none →
    exec .compact s = .fault (.unwrittenByte .frame bs.length)

/-- R146 with R104: for legitimate operands encoding and then compacting completes with `OK` twice and leaves the wire
form in `TXBUF`, 14 bytes and the address text and the payload long, the terminator after it. -/
def Obligations.EncodeThenCompactLeavesTheWireForm : Prop :=
  ∀ (s : State) (c : Command), s.cfg.Valid → s.hostop = .idle → c.fits s.cfg → c.legitimate →
    ∃ t u, exec (encodeInstr c) s = .next t ∧ exec .compact t = .next u ∧
      u.hostReturns = s.hostReturns ++ [{ status := .ok }, { status := .ok }] ∧
      u.txLen = (wireRequest c).length ∧ u.txLen = 14 + c.desc.addr.length + c.payload.length ∧
      u.txbuf.holds 0 (wireRequest c ++ [0x00#8])

/-- R166: after an `ENC.*` a `COMPACT` returns `OK`, whatever the bytes of the operands, and a `DISPATCH` that runs goes
on to its send. -/
def Obligations.TerminatorIsNeverMissingAfterEncoding : Prop :=
  (∀ (s t u : State) (c : Command), exec (encodeInstr c) s = .next t → exec .compact t = .next u →
    u.hostReturns = t.hostReturns ++ [{ status := .ok }]) ∧
  (∀ (s t : State) (c : Command), exec (.dispatch c) s = .next t →
    t.hostop = .sending ∧ t.hostReturns = s.hostReturns)

/-! ## Sending -/

/-- R175: the start step of `SEND`, operation code 5; it returns nothing yet. -/
def Obligations.SendStartsATransmission : Prop :=
  (∀ r : CommandRecord, r.op = 5 → decode (.command r) = .ok .send) ∧
  ∀ s : State, s.hostop = .idle →
    exec .send s = .next { s with txIdx := 0, txT0 := s.now, hostop := .sending }

/-- R170: a `DISPATCH` in bounds completes its start step, which leaves the state of `ENC.*`, `COMPACT` and `SEND`
issued in a row, less the two statuses these return. -/
def Obligations.DispatchIsEncodeCompactSend : Prop :=
  ∀ (s : State) (c : Command), s.cfg.Valid → s.hostop = .idle → c.fits s.cfg →
    ∃ t u v, exec (encodeInstr c) s = .next t ∧ exec .compact t = .next u ∧ exec .send u = .next v ∧
      exec (.dispatch c) s = .next { v with hostReturns := s.hostReturns } ∧
      v.hostop = .sending ∧ v.txIdx = 0 ∧ v.txT0 = s.now ∧ 0 < v.txLen

/-- R178: `!TXACC` emits the next byte of `TXBUF` while a send is in progress and bytes remain, and is a step of the
codec only then. -/
def Obligations.TxAcceptEmitsTheNextByte : Prop :=
  (∀ (s : State) (b : Byte), s.hostop = .sending → s.txIdx < s.txLen → s.txLen ≤ s.cfg.frameCap →
    s.txbuf.read s.txIdx = some b →
    runEvent .txAccept s = .next { s with txTrace := s.txTrace ++ [b], txIdx := s.txIdx + 1 }) ∧
  (∀ s t : State, runEvent .txAccept s = .next t → s.hostop = .sending ∧ s.txIdx < s.txLen)

/-- R62, R162, R178: a send whose bytes are all accepted has emitted `TXBUF[0 .. TX_LEN-1]`, lowest index first, and
then no further byte, the terminator among them, can be emitted: `!TXACC` is not enabled (R178), which the model renders
as the refusal `stepNotEnabled` (the model's choice, log entry 12). -/
def Obligations.AcceptedTransmissionEmitsTheCompactedFrame : Prop :=
  ∀ (s : State) (bs : List Byte), s.hostop = .sending → s.txIdx = 0 → s.txLen = bs.length →
    bs.length ≤ s.cfg.frameCap → s.txbuf.holds 0 bs →
    ∃ t, runEvents (List.replicate bs.length .txAccept) s = .next t ∧
      t = { s with txTrace := s.txTrace ++ bs, txIdx := bs.length } ∧
      runEvent .txAccept t = .refused .stepNotEnabled

/-- R176, R177: a send in progress completes with `OK` when every byte has been accepted, whatever the clock says, with
`TRANSMIT_TIMEOUT` when bytes remain and the deadline has come, and in no other case. -/
def Obligations.SendCompletesOrTimesOut : Prop :=
  ∀ s : State, s.hostop = .sending →
    (s.txIdx = s.txLen → runEvent .hostPoll s =
      .next (returnHost { s with hostop := .idle, sync := if s.sync = .armed then .sent else s.sync } .ok)) ∧
    (s.txIdx < s.txLen → (s.cfg.txTimeoutMs : Int) ≤ elapsedInt s.cfg s.now s.txT0 →
      runEvent .hostPoll s = .next (returnHost { s with hostop := .idle } .transmitTimeout)) ∧
    (∀ t, runEvent .hostPoll s = .next t → t.hostop = .idle →
      s.txIdx = s.txLen ∨ (s.txIdx < s.txLen ∧ (s.cfg.txTimeoutMs : Int) ≤ elapsedInt s.cfg s.now s.txT0))

/-- The model's choice for an agent's step whose enabling condition (R176, R177, R178, R197, R198) does not hold (log
entry 12): `!TXACC` and the poll of an idle HOST are refused by name; the poll of a blocked HOST changes nothing. -/
def Obligations.StepsThatAreNotEnabledHaveNoEffect : Prop :=
  (∀ s : State, s.hostop ≠ .sending ∨ s.txLen ≤ s.txIdx → runEvent .txAccept s = .refused .stepNotEnabled) ∧
  (∀ s : State, s.hostop = .idle → runEvent .hostPoll s = .refused .stepNotEnabled) ∧
  (∀ s : State, s.hostop = .sending → s.txIdx < s.txLen →
    elapsedInt s.cfg s.now s.txT0 < s.cfg.txTimeoutMs → runEvent .hostPoll s = .next s) ∧
  (∀ s : State, s.hostop = .waiting → s.frameArrived = false →
    elapsedInt s.cfg s.now s.rxT0 < s.cfg.rxTimeoutMs → runEvent .hostPoll s = .next s)

/-! ## Receiving -/

/-- R191: `RX.ARM`, operation code 7, completes from every stage; `RXBUF` is not cleared. -/
def Obligations.RxArmClearsTheSignalAndArms : Prop :=
  (∀ r : CommandRecord, r.op = 7 → decode (.command r) = .ok .rxArm) ∧
  ∀ s : State, s.hostop = .idle →
    exec .rxArm s =
      .next (returnHost { s with frameArrived := false, rxLen := 0, rxArmed := true, sync := .armed } .ok)

/-- R194: a byte is dropped while no receive is armed; else it is stored at `RX_LEN` and counted, and the byte that
fills the buffer completes the receive. -/
def Obligations.ReceivedByteIsStoredWhileArmed : Prop :=
  ∀ (s : State) (b : Byte),
    (s.rxArmed = false → runEvent (.rx b) s = .next s) ∧
    (s.rxArmed = true → s.rxLen + 1 < s.cfg.frameCap →
      ∃ t, runEvent (.rx b) s = .next t ∧ t = { s with rxbuf := t.rxbuf, rxLen := s.rxLen + 1 } ∧
        t.rxbuf.read s.rxLen = some b ∧ s.rxbuf.sameOutside t.rxbuf s.rxLen 1) ∧
    (s.rxArmed = true → s.rxLen + 1 = s.cfg.frameCap →
      ∃ t, runEvent (.rx b) s = .next t ∧
        t = { s with rxbuf := t.rxbuf, rxLen := s.cfg.frameCap, frameArrived := true, rxArmed := false } ∧
        t.rxbuf.read s.rxLen = some b ∧ s.rxbuf.sameOutside t.rxbuf s.rxLen 1)

/-- R195: an idle line completes an armed receive that has a byte, and nothing else. -/
def Obligations.IdleCompletesANonEmptyReceive : Prop :=
  ∀ s : State,
    (s.rxArmed = true → 0 < s.rxLen →
      runEvent .idle s = .next { s with frameArrived := true, rxArmed := false }) ∧
    (s.rxArmed = false ∨ s.rxLen = 0 → runEvent .idle s = .next s)

/-- The rows that are bytes on the line (`REQ.RSS`, `REQ.WSS`, `REQ.RSB`, `REQ.WSB`, `RESP.ACK`, `RESP.NAK`, `ENQ`,
`ACK`, `NAK`, `EOT`, `ETX`) complete in every state whose armed receive has room for a byte, and are their bytes
arriving one after another: dropped while no receive is armed, stored from `RX_LEN` upwards while they fit, and cut
at the byte that fills the buffer. That they mean their arrival is the model's reading (log entry 9). -/
def Obligations.WireRowsArriveByteAfterByte : Prop :=
  ∀ (s : State) (i : Instr) (bs : List Byte), encode i = .line bs →
    exec i s = runEvents (bs.map Event.rx) s ∧
    (s.rxArmed = false → exec i s = .next s) ∧
    (s.rxArmed = true → s.rxLen + bs.length < s.cfg.frameCap →
      ∃ t, exec i s = .next t ∧ t = { s with rxbuf := t.rxbuf, rxLen := s.rxLen + bs.length } ∧
        t.rxbuf.holds s.rxLen bs ∧ s.rxbuf.sameOutside t.rxbuf s.rxLen bs.length) ∧
    (s.rxArmed = true → s.rxLen < s.cfg.frameCap → s.cfg.frameCap ≤ s.rxLen + bs.length →
      ∃ t, exec i s = .next t ∧
        t = { s with rxbuf := t.rxbuf, rxLen := s.cfg.frameCap, frameArrived := true, rxArmed := false } ∧
        t.rxbuf.holds s.rxLen (bs.take (s.cfg.frameCap - s.rxLen)) ∧
        s.rxbuf.sameOutside t.rxbuf s.rxLen (s.cfg.frameCap - s.rxLen))

/-- R90: the values of the five control codes, as the bytes their rows put at the receiver. -/
def Obligations.ControlCodesHaveTheirByteValues : Prop :=
  ∀ s : State,
    exec .ctlEnq s = runEvent (.rx 0x05) s ∧ exec .ctlAck s = runEvent (.rx 0x06) s ∧
    exec .ctlNak s = runEvent (.rx 0x15) s ∧ exec .ctlEot s = runEvent (.rx 0x04) s ∧
    exec .ctlEtx s = runEvent (.rx 0x03) s

/-- R196: the start step of `RX.WAIT`, operation code 8; it returns nothing yet. -/
def Obligations.RxWaitStartsTheWait : Prop :=
  (∀ r : CommandRecord, r.op = 8 → decode (.command r) = .ok .rxWait) ∧
  ∀ s : State, s.hostop = .idle →
    exec .rxWait s = .next { s with rxT0 := s.now, sync := .waiting, hostop := .waiting }

/-- R197, R198: a wait completes with `OK` when the flag is set, whatever the clock says (in a good state a byte has then
been received), with `RESPONSE_TIMEOUT` when it is clear and the deadline has come, the receive left as it is, and in
no other case. -/
def Obligations.WaitCompletesOrTimesOut : Prop :=
  ∀ s : State, s.hostop = .waiting →
    (s.frameArrived = true →
      runEvent .hostPoll s = .next (returnHost { s with sync := .completed, hostop := .idle } .ok) ∧
        (Inv s → 0 < s.rxLen)) ∧
    (s.frameArrived = false → (s.cfg.rxTimeoutMs : Int) ≤ elapsedInt s.cfg s.now s.rxT0 →
      runEvent .hostPoll s =
        .next (returnHost { s with sync := .timedOut, hostop := .idle } .responseTimeout)) ∧
    (∀ t, runEvent .hostPoll s = .next t → t.hostop = .idle →
      s.frameArrived = true ∨ (s.frameArrived = false ∧ (s.cfg.rxTimeoutMs : Int) ≤ elapsedInt s.cfg s.now s.rxT0))

/-- R312, R43 (b): a wait issued on a flag left from an old completion returns `OK` at once, on the old bytes. -/
def Obligations.StaleCompletionSatisfiesTheNextWait : Prop :=
  ∀ s : State, s.hostop = .idle → s.frameArrived = true →
    ∃ t u, exec .rxWait s = .next t ∧ runEvent .hostPoll t = .next u ∧
      u = returnHost { s with rxT0 := s.now, sync := .completed } .ok

/-- R180, R199: a good state with an operation in progress can be released: on the schedule of ticks alone, at most the
longer of the two timeouts of them, the HOST's poll then returns. Nothing is said of other schedules. -/
def Obligations.BlockedOperationsCanAlwaysFinish : Prop :=
  ∀ s : State, Inv s → s.hostop ≠ .idle →
    ∃ n t u, n ≤ max s.cfg.txTimeoutMs s.cfg.rxTimeoutMs ∧
      runEvents (List.replicate n .tick) s = .next t ∧ runEvent .hostPoll t = .next u ∧ u.hostop = .idle ∧
      u.hostReturns.length = s.hostReturns.length + 1

/-! ## Decoding a response -/

/-- R220 to R226: `DECODE`, operation code 9, completes over a received buffer; it returns `MALFORMED_RESPONSE` in
exactly the seven cases that the spec gathers from these rules in R227 ("All causes of `MALFORMED_RESPONSE`") and a
record in every other, and changes nothing. -/
def Obligations.DecodeIsMalformedExactlyInTheSevenCauses : Prop :=
  (∀ r : CommandRecord, r.op = 9 → decode (.command r) = .ok .decodeOp) ∧
  ∀ (s : State) (bs : List Byte), s.hostop = .idle → s.rxLen = bs.length → bs.length ≤ s.cfg.frameCap →
    s.rxbuf.holds 0 bs →
    (malformedCause s.cfg.respEnd bs → exec .decodeOp s = .next (returnHost s .malformedResponse)) ∧
    (¬ malformedCause s.cfg.respEnd bs → ∃ r, exec .decodeOp s = .next (returnHost s .ok (.response r)))

/-- R221, R222, R226, R105, R106: a buffer that begins with a success response ended by `RESP_END`, or with an error
response, decodes to its fields, whatever bytes follow. -/
def Obligations.DecodeReturnsTheFieldsOfTheResponse : Prop :=
  (∀ (s : State) (f : AckFrame) (more : List Byte), s.hostop = .idle → f.data.length ≤ 255 →
    termByte f.term = s.cfg.respEnd → s.rxLen = (wireAck f ++ more).length → s.rxLen ≤ s.cfg.frameCap →
    s.rxbuf.holds 0 (wireAck f ++ more) →
    exec .decodeOp s = .next (returnHost s .ok (.response
      (.ack f.station f.command f.ctype1 f.ctype2 f.blocks (BitVec.ofNat 8 f.data.length) f.data)))) ∧
  (∀ (s : State) (f : NakFrame) (more : List Byte), s.hostop = .idle →
    s.rxLen = (wireNak f ++ more).length → s.rxLen ≤ s.cfg.frameCap → s.rxbuf.holds 0 (wireNak f ++ more) →
    exec .decodeOp s = .next (returnHost s .ok (.response
      (.nak f.station f.command f.ctype1 f.ctype2 f.blocks f.err1 f.err2 f.err3 f.err4))))

/-- R228: a success response that arrives after `RX.ARM` and is followed by an idle line decodes to the payload it was
built from. Its arrival is `exec (.respAck f)`: that the row means the arrival of its bytes, one `!RX` each, is the
model's reading (log entry 9), and that no other agent steps between them is the one step of log entry 10. -/
def Obligations.ArrivedAckRoundTripsItsPayload : Prop :=
  ∀ (s : State) (f : AckFrame), s.cfg.Valid → s.hostop = .idle → f.data.length ≤ 255 →
    (wireAck f).length ≤ s.cfg.frameCap → termByte f.term = s.cfg.respEnd →
    ∃ t u v, exec .rxArm s = .next t ∧ exec (.respAck f) t = .next u ∧ runEvent .idle u = .next v ∧
      v.frameArrived = true ∧ v.rxArmed = false ∧ v.rxLen = 11 + f.data.length ∧
      exec .decodeOp v = .next (returnHost v .ok (.response
        (.ack f.station f.command f.ctype1 f.ctype2 f.blocks (BitVec.ofNat 8 f.data.length) f.data)))

/-! ## The ring -/

/-- R241: `RB.WRITE` from the HOST's idle port and, whatever `HOSTOP` is, from the PRODUCER's: a full ring returns
`RB_FULL` and changes nothing; else the byte is stored at `HEAD` and `HEAD` moves on modulo `RING_CAP`. Operation code
10 at either port. -/
def Obligations.RingWriteStoresOrReportsFull : Prop :=
  (∀ r : CommandRecord, r.op = 10 → decode (.command r) = .ok (.rbWrite .host r.v)) ∧
  (∀ v : Byte, decode (.producer 10 v) = .ok (.rbWrite .producer v)) ∧
  ∀ (s : State) (port : Port) (v : Byte), port = .producer ∨ s.hostop = .idle →
    ((s.head + 1) % s.cfg.ringCap = s.tail → exec (.rbWrite port v) s = .next (returnAt port s .rbFull)) ∧
    ((s.head + 1) % s.cfg.ringCap ≠ s.tail → s.head < s.cfg.ringCap →
      ∃ t, exec (.rbWrite port v) s = .next t ∧
        t = returnAt port { s with ring := t.ring, head := (s.head + 1) % s.cfg.ringCap } .ok ∧
        t.ring.read s.head = some v ∧ s.ring.sameOutside t.ring s.head 1)

/-- R242: `RB.READ` of an empty ring returns `RB_EMPTY` and changes nothing; else it returns the byte at `TAIL` and
`TAIL` moves on modulo `RING_CAP`, the ring's bytes unchanged. Operation code 11. -/
def Obligations.RingReadTakesTheByteAtTail : Prop :=
  (∀ r : CommandRecord, r.op = 11 → decode (.command r) = .ok .rbRead) ∧
  ∀ s : State, s.hostop = .idle →
    (s.head = s.tail → exec .rbRead s = .next (returnHost s .rbEmpty)) ∧
    (∀ v : Byte, s.head ≠ s.tail → s.tail < s.cfg.ringCap → s.ring.read s.tail = some v →
      exec .rbRead s = .next (returnHost { s with tail := (s.tail + 1) % s.cfg.ringCap } .ok (.byte v)))

/-- R243: `RB.FLUSH` sets both indices to 0 and leaves the slots; a read right after it reports an empty ring. Operation
code 12. -/
def Obligations.RingFlushEmptiesTheRing : Prop :=
  (∀ r : CommandRecord, r.op = 12 → decode (.command r) = .ok .rbFlush) ∧
  ∀ s : State, s.hostop = .idle →
    exec .rbFlush s = .next (returnHost { s with head := 0, tail := 0 } .ok) ∧
    ∃ t, exec .rbFlush s = .next t ∧ exec .rbRead t = .next (returnHost t .rbEmpty)

/-- R240 to R243: over its content, oldest byte first, the ring is a queue of at most `RING_CAP - 1` bytes. The law is
the spec's own inference (45_ring_buffer.md, the sentences of R244 that begin "Then: `RB.WRITE v -> OK` appends `v` to
the content"). With `HOSTOP` IDLE; the PRODUCER's writes in every other stage of the HOST are the next statement. -/
def Obligations.RingIsABoundedQueue : Prop :=
  ∀ s : State, Inv s → s.hostop = .idle →
    (∀ port v, (ringContent s).length = s.cfg.ringCap - 1 →
      exec (.rbWrite port v) s = .next (returnAt port s .rbFull)) ∧
    (∀ port v, (ringContent s).length ≠ s.cfg.ringCap - 1 →
      ∃ t, exec (.rbWrite port v) s = .next (returnAt port t .ok) ∧ ringContent t = ringContent s ++ [some v]) ∧
    (ringContent s = [] → exec .rbRead s = .next (returnHost s .rbEmpty)) ∧
    (∀ v rest, ringContent s = v :: rest →
      ∃ b t, v = some b ∧ exec .rbRead s = .next (returnHost t .ok (.byte b)) ∧ ringContent t = rest) ∧
    (∃ t, exec .rbFlush s = .next t ∧ ringContent t = []) ∧
    (ringContent s).length ≤ s.cfg.ringCap - 1

/-- R241, R246: the same law for the PRODUCER's `RB.WRITE`, whatever operation of the HOST is in progress: on a ring of
`RING_CAP - 1` bytes `RB_FULL` and nothing changes, else the byte is appended to the content and nothing but `RING` and
`HEAD` changes. The law over the content is the spec's own inference in R244, as in the statement before. -/
def Obligations.ProducerWritesAppendWhateverTheHostDoes : Prop :=
  ∀ (s : State) (v : Byte), Inv s →
    ((ringContent s).length = s.cfg.ringCap - 1 →
      exec (.rbWrite .producer v) s = .next (returnProducer s .rbFull)) ∧
    ((ringContent s).length ≠ s.cfg.ringCap - 1 →
      ∃ t, exec (.rbWrite .producer v) s = .next (returnProducer t .ok) ∧
        t = { s with ring := t.ring, head := t.head } ∧ ringContent t = ringContent s ++ [some v])

/-! ## Clock and reset -/

/-- R276, R282: a tick moves the clock by one modulo `2^CLOCK_WIDTH` and changes nothing else, and no other step moves
the clock. -/
def Obligations.OnlyTheTickMovesTheClock : Prop :=
  (∀ s : State, runEvent .tick s = .next { s with now := (s.now + 1) % 2 ^ s.cfg.clockWidth }) ∧
  (∀ s t : State, step s = .next t → ¬ headEvent s .tick → t.now = s.now)

/-- R46: the reset event (R300) gives every element the value of the table of R46, where the table gives one, and leaves
the clock. -/
def Obligations.ResetEventGivesTheTableOfResetValues : Prop :=
  ∀ s : State, ∃ t, runEvent .reset s = .next t ∧
    (∀ i, t.frame.read i = none ∧ t.txbuf.read i = none ∧ t.rxbuf.read i = none ∧ t.ring.read i = none) ∧
    t.txLen = 0 ∧ t.txIdx = 0 ∧ t.rxLen = 0 ∧ t.rxArmed = false ∧ t.frameArrived = false ∧
    t.sync.code = 0 ∧ t.hostop.code = 0 ∧ t.head = 0 ∧ t.tail = 0 ∧ t.txTrace = [] ∧ t.now = s.now

/-- The model's choices about the reset event: `TX_T0` and `RX_T0`, which R46 leaves unspecified, become 0, the model's
return logs are emptied, the parameters and the schedule stay (log entries 5, 7 and 27). -/
def Obligations.ResetEventOnTheModelsOwnFields : Prop :=
  ∀ s : State, ∃ t, runEvent .reset s = .next t ∧ t.txT0 = 0 ∧ t.rxT0 = 0 ∧ t.hostReturns = [] ∧
    t.producerReturns = [] ∧ t.cfg = s.cfg ∧ t.pending = s.pending

/-- R46, R5: `State.reset` has the values of R46 under the default parameters of R5. The clock at 0 and the timeouts of
100 ms are the model's choice (log entries 3 and 6). -/
def Obligations.ResetStateHasTheDefaultParameters : Prop :=
  runEvent .reset State.reset = .next State.reset ∧
  State.reset.cfg = { frameCap := 256, nameCap := 16, dataCap := 229, ringCap := 256, txTimeoutMs := 100,
                      rxTimeoutMs := 100, clockWidth := 32, respEnd := 0x04 } ∧
  State.reset.now = 0 ∧ State.reset.pending = []

/-! ## Rules of the whole machine -/

/-- R40: the state after reset is good. -/
def Obligations.ResetStateIsGood : Prop := Inv State.reset

/-- R40: every step keeps the invariant, from every state that has it. -/
def Obligations.StepKeepsTheInvariant : Prop := ∀ s t : State, Inv s → step s = .next t → Inv t

/-- R60, R65: every step keeps the four stores in canonical form and inside their index spaces, from every state that
has them so. -/
def Obligations.StepKeepsTheStoresCanonical : Prop :=
  ∀ s t : State, StoresGood s → step s = .next t → StoresGood t

/-- R44, R65: from a good state the only fault a step can end in is that of a `COMPACT` issued before any encode. That
this stop is a fault and not a refusal, which R44 leaves open, is the model's (log entry 4). -/
def Obligations.OnlyCompactBeforeEncodeFaults : Prop :=
  ∀ (s : State) (f : Fault), Inv s → step s = .fault f →
    f = .unwrittenByte .frame 0 ∧ s.frame = [] ∧ headInstr s .compact

/-- R5, R39 (a): the parameters never change. -/
def Obligations.StepKeepsTheParameters : Prop := ∀ s t : State, step s = .next t → t.cfg = s.cfg

/-- R201, R34: who moves `SYNC`, and from where. -/
def Obligations.SyncMovesOnlyByTheTable : Prop :=
  ∀ s t : State, Inv s → step s = .next t → t.sync ≠ s.sync →
    match t.sync with
    | .idle => headEvent s .reset
    | .armed => headInstr s .rxArm ∧ s.hostop = .idle
    | .sent => headEvent s .hostPoll ∧ s.sync = .armed ∧ s.hostop = .sending
    | .waiting => headInstr s .rxWait ∧ s.hostop = .idle
    | .completed => headEvent s .hostPoll ∧ s.sync = .waiting ∧ s.frameArrived = true
    | .timedOut => headEvent s .hostPoll ∧ s.sync = .waiting ∧ s.frameArrived = false

/-- R45, R178, R300: the trace of the line grows by one byte of `TXBUF` at `!TXACC`, is emptied by the reset, and is
changed by no other step. -/
def Obligations.TraceGrowsOnlyByAcceptedBytes : Prop :=
  ∀ s t : State, step s = .next t →
    t.txTrace = s.txTrace ∨
    (headEvent s .txAccept ∧ s.hostop = .sending ∧ s.txIdx < s.txLen ∧
      ∃ b, s.txbuf.read s.txIdx = some b ∧ t.txTrace = s.txTrace ++ [b]) ∨
    (headEvent s .reset ∧ t.txTrace = [])

/-- R202: the "frame arrived" signal is set only by the receive (a byte or an idle line) and cleared only by `RX.ARM` and
the reset. -/
def Obligations.FrameArrivedHasItsWritersOnly : Prop :=
  ∀ s t : State, step s = .next t →
    (s.frameArrived = false → t.frameArrived = true →
      s.rxArmed = true ∧
        (headEvent s .idle ∨ (∃ b, headEvent s (.rx b)) ∨ ∃ bs rest, s.pending = .request (.line bs) :: rest)) ∧
    (s.frameArrived = true → t.frameArrived = false → headInstr s .rxArm ∨ headEvent s .reset)

/-- R245: reception never touches the ring, and the ring's operations never touch the receive side. -/
def Obligations.RingAndReceiverAreIndependent : Prop :=
  (∀ (s t : State) (b : Byte), runEvent (.rx b) s = .next t → t.ring = s.ring ∧ t.head = s.head ∧ t.tail = s.tail) ∧
  (∀ (s t : State) (i : Instr), (∃ port v, i = .rbWrite port v) ∨ i = .rbRead ∨ i = .rbFlush →
    exec i s = .next t → t.rxbuf = s.rxbuf ∧ t.rxLen = s.rxLen ∧ t.rxArmed = s.rxArmed ∧
      t.frameArrived = s.frameArrived)

/-- R69, R70 (third row of the table): while a send is in progress no step but the reset changes the compacted frame
or its length. -/
def Obligations.CompactedFrameIsStableWhileSending : Prop :=
  ∀ s t : State, s.hostop = .sending → step s = .next t → ¬ headEvent s .reset →
    t.txbuf = s.txbuf ∧ t.txLen = s.txLen

/-- R132: the script `TRANSACT` arms, dispatches, waits and decodes, and stops at the first status that is not `OK`. -/
def Obligations.TransactStopsAtTheFirstError : Prop :=
  ∀ (c : Command) (a b w d : Return),
    transactNext c [] = some .rxArm ∧ transactNext c [a] = some (.dispatch c) ∧
    (b.status = .ok → transactNext c [a, b] = some .rxWait) ∧
    (b.status ≠ .ok → transactResult c [a, b] = some b) ∧
    (w.status = .ok → transactNext c [a, b, w] = some .decodeOp) ∧
    (w.status ≠ .ok → transactResult c [a, b, w] = some w) ∧
    transactResult c [a, b, w, d] = some d
end

