-- ==== Sys2Proof/Laws/Memory.lean ====
section
/-! SUPPORT. Laws of the byte stores: read after write, the canonical form and the index bound, and each of them kept
by every operation on a store. -/

namespace Sys2Proof.Machine

@[simp] theorem Memory.read_nil (a : Nat) : Memory.read [] a = none := rfl

/-- Reading the index just written gives the byte written. -/
@[simp] theorem Memory.read_write_same (m : Memory) (a : Nat) (v : Byte) : (m.write a v).read a = some v := by
  induction m with
  | nil => simp [Memory.write, Memory.read]
  | cons c m ih =>
    obtain ⟨k, b⟩ := c
    unfold Memory.write
    split
    · simp [Memory.read]
    · split
      · simp [Memory.read]
      · rename_i h1 h2
        simp [Memory.read, Ne.symm h2, ih]

/-- A write leaves every other index alone. -/
theorem Memory.read_write_other (m : Memory) {a i : Nat} (v : Byte) (h : i ≠ a) :
    (m.write a v).read i = m.read i := by
  induction m with
  | nil => simp [Memory.write, Memory.read, Ne.symm h]
  | cons c m ih =>
    obtain ⟨k, b⟩ := c
    unfold Memory.write
    split
    · simp [Memory.read, Ne.symm h]
    · split
      · rename_i _ h2
        subst h2
        simp [Memory.read, Ne.symm h]
      · simp [Memory.read, ih]

/-- The read after a write, both cases. -/
theorem Memory.read_write (m : Memory) (a i : Nat) (v : Byte) :
    (m.write a v).read i = if i = a then some v else m.read i := by
  split
  · next h => subst h; simp
  · next h => exact m.read_write_other v h

/-- The read after writing a byte sequence. -/
theorem Memory.read_writeBytes (bs : List Byte) : ∀ (m : Memory) (a i : Nat),
    (m.writeBytes a bs).read i = if a ≤ i ∧ i < a + bs.length then bs[i - a]? else m.read i := by
  induction bs with
  | nil => intro m a i; simp [Memory.writeBytes]
  | cons b bs ih =>
    intro m a i
    rw [Memory.writeBytes, ih, Memory.read_write]
    simp only [List.length_cons]
    by_cases h0 : i = a
    · subst h0
      rw [if_neg (by omega), if_pos rfl, if_pos (by omega)]
      simp
    · by_cases h1 : a + 1 ≤ i ∧ i < a + 1 + bs.length
      · rw [if_pos h1, if_pos (by omega)]
        obtain ⟨d, rfl⟩ : ∃ d, i = a + 1 + d := ⟨i - (a + 1), by omega⟩
        rw [show a + 1 + d - (a + 1) = d by omega, show a + 1 + d - a = d + 1 by omega,
          List.getElem?_cons_succ]
      · rw [if_neg h1, if_neg h0, if_neg (by omega)]

/-- The store made of a byte sequence reads as the sequence. -/
theorem Memory.read_ofBytes (bs : List Byte) : ∀ (a i : Nat),
    (Memory.ofBytes a bs).read i = if a ≤ i then bs[i - a]? else none := by
  induction bs with
  | nil => intro a i; simp [Memory.ofBytes]
  | cons b bs ih =>
    intro a i
    rw [Memory.ofBytes, Memory.read, ih]
    by_cases h0 : i = a
    · subst h0; simp
    · rw [if_neg (Ne.symm h0)]
      by_cases h1 : a + 1 ≤ i
      · obtain ⟨d, rfl⟩ : ∃ d, i = a + 1 + d := ⟨i - (a + 1), by omega⟩
        rw [if_pos h1, if_pos (by omega), show a + 1 + d - (a + 1) = d by omega,
          show a + 1 + d - a = d + 1 by omega, List.getElem?_cons_succ]
      · rw [if_neg h1, if_neg (by omega)]

/-! ## Canonical form -/

theorem Memory.rising_mono {lo lo' : Nat} (h : lo' ≤ lo) : ∀ {m : Memory}, m.rising lo = true → m.rising lo' = true
  | [], _ => rfl
  | (k, b) :: m, hm => by
    simp only [Memory.rising, Bool.and_eq_true, decide_eq_true_eq] at hm ⊢
    exact ⟨by omega, hm.2⟩

theorem Memory.rising_write {m : Memory} : ∀ {lo a : Nat} (v : Byte), lo ≤ a → m.rising lo = true →
    (m.write a v).rising lo = true := by
  induction m with
  | nil => intro lo a v h _; simp [Memory.write, Memory.rising, h]
  | cons c m ih =>
    obtain ⟨k, b⟩ := c
    intro lo a v h hm
    simp only [Memory.rising, Bool.and_eq_true, decide_eq_true_eq] at hm
    unfold Memory.write
    split
    · simp only [Memory.rising, Bool.and_eq_true, decide_eq_true_eq]
      exact ⟨h, by omega, hm.2⟩
    · split
      · next h2 =>
        subst h2
        simp only [Memory.rising, Bool.and_eq_true, decide_eq_true_eq]
        exact ⟨h, hm.2⟩
      · simp only [Memory.rising, Bool.and_eq_true, decide_eq_true_eq]
        exact ⟨hm.1, ih v (by omega) hm.2⟩

/-- A write keeps the canonical form. -/
theorem Memory.wf_write {m : Memory} (h : m.wf = true) (a : Nat) (v : Byte) : (m.write a v).wf = true :=
  Memory.rising_write v (Nat.zero_le a) h

/-- Writing a byte sequence keeps the canonical form. -/
theorem Memory.wf_writeBytes (bs : List Byte) : ∀ {m : Memory} (a : Nat), m.wf = true →
    (m.writeBytes a bs).wf = true := by
  induction bs with
  | nil => intro m a h; exact h
  | cons b bs ih => intro m a h; exact ih (a + 1) (Memory.wf_write h a b)

theorem Memory.rising_ofBytes (bs : List Byte) : ∀ {lo a : Nat}, lo ≤ a → (Memory.ofBytes a bs).rising lo = true := by
  induction bs with
  | nil => intro lo a _; rfl
  | cons b bs ih =>
    intro lo a h
    simp only [Memory.ofBytes, Memory.rising, Bool.and_eq_true, decide_eq_true_eq]
    exact ⟨h, ih (Nat.le_refl _)⟩

/-- The store made of a byte sequence is canonical. -/
theorem Memory.wf_ofBytes (a : Nat) (bs : List Byte) : (Memory.ofBytes a bs).wf = true :=
  Memory.rising_ofBytes bs (Nat.zero_le a)

/-! ## Index bound -/

@[simp] theorem Memory.within_nil (cap : Nat) : Memory.within cap [] = true := rfl

theorem Memory.within_cons (cap k : Nat) (b : Byte) (m : Memory) :
    Memory.within cap ((k, b) :: m) = true ↔ k < cap ∧ m.within cap = true := by
  simp [Memory.within]

/-- A write below the bound keeps it. -/
theorem Memory.within_write {cap a : Nat} (v : Byte) (ha : a < cap) : ∀ {m : Memory}, m.within cap = true →
    (m.write a v).within cap = true
  | [], _ => by simp [Memory.write, Memory.within, ha]
  | (k, b) :: m, h => by
    rw [Memory.within_cons] at h
    unfold Memory.write
    split
    · rw [Memory.within_cons, Memory.within_cons]; exact ⟨ha, h⟩
    · split
      · rw [Memory.within_cons]; exact ⟨ha, h.2⟩
      · rw [Memory.within_cons]; exact ⟨h.1, Memory.within_write v ha h.2⟩

/-- Writing a sequence that ends below the bound keeps it. -/
theorem Memory.within_writeBytes {cap : Nat} (bs : List Byte) : ∀ {m : Memory} (a : Nat), a + bs.length ≤ cap →
    m.within cap = true → (m.writeBytes a bs).within cap = true := by
  induction bs with
  | nil => intro m a _ h; exact h
  | cons b bs ih =>
    intro m a ha h
    simp only [List.length_cons] at ha
    exact ih (a + 1) (by omega) (Memory.within_write b (by omega) h)

/-- The store made of a sequence that ends below the bound is within it. -/
theorem Memory.within_ofBytes {cap : Nat} (bs : List Byte) : ∀ (a : Nat), a + bs.length ≤ cap →
    (Memory.ofBytes a bs).within cap = true := by
  induction bs with
  | nil => intro a _; rfl
  | cons b bs ih =>
    intro a ha
    simp only [List.length_cons] at ha
    rw [Memory.ofBytes, Memory.within_cons]
    exact ⟨by omega, ih (a + 1) (by omega)⟩

/-- A store within a bound holds nothing at or above it. -/
theorem Memory.read_within {cap i : Nat} (hi : cap ≤ i) : ∀ {m : Memory}, m.within cap = true → m.read i = none
  | [], _ => rfl
  | (k, b) :: m, h => by
    rw [Memory.within_cons] at h
    rw [Memory.read, if_neg (by omega)]
    exact Memory.read_within hi h.2

end Sys2Proof.Machine
end

