-- ==== Sys2Proof/Laws/State.lean ====
section
/-! SUPPORT. One lemma per field per named update of State, each true by rfl and a simp lemma, so that no proof unfolds
an update. -/

namespace Sys2Proof.Machine

/-! ## withPending -/

@[simp] theorem withPending_cfg (s : State) (p : List Stimulus) : (s.withPending p).cfg = s.cfg := rfl
@[simp] theorem withPending_frame (s : State) (p : List Stimulus) : (s.withPending p).frame = s.frame := rfl
@[simp] theorem withPending_txbuf (s : State) (p : List Stimulus) : (s.withPending p).txbuf = s.txbuf := rfl
@[simp] theorem withPending_rxbuf (s : State) (p : List Stimulus) : (s.withPending p).rxbuf = s.rxbuf := rfl
@[simp] theorem withPending_ring (s : State) (p : List Stimulus) : (s.withPending p).ring = s.ring := rfl
@[simp] theorem withPending_txLen (s : State) (p : List Stimulus) : (s.withPending p).txLen = s.txLen := rfl
@[simp] theorem withPending_txIdx (s : State) (p : List Stimulus) : (s.withPending p).txIdx = s.txIdx := rfl
@[simp] theorem withPending_txT0 (s : State) (p : List Stimulus) : (s.withPending p).txT0 = s.txT0 := rfl
@[simp] theorem withPending_rxLen (s : State) (p : List Stimulus) : (s.withPending p).rxLen = s.rxLen := rfl
@[simp] theorem withPending_rxArmed (s : State) (p : List Stimulus) : (s.withPending p).rxArmed = s.rxArmed := rfl
@[simp] theorem withPending_frameArrived (s : State) (p : List Stimulus) : (s.withPending p).frameArrived = s.frameArrived := rfl
@[simp] theorem withPending_rxT0 (s : State) (p : List Stimulus) : (s.withPending p).rxT0 = s.rxT0 := rfl
@[simp] theorem withPending_sync (s : State) (p : List Stimulus) : (s.withPending p).sync = s.sync := rfl
@[simp] theorem withPending_hostop (s : State) (p : List Stimulus) : (s.withPending p).hostop = s.hostop := rfl
@[simp] theorem withPending_head (s : State) (p : List Stimulus) : (s.withPending p).head = s.head := rfl
@[simp] theorem withPending_tail (s : State) (p : List Stimulus) : (s.withPending p).tail = s.tail := rfl
@[simp] theorem withPending_now (s : State) (p : List Stimulus) : (s.withPending p).now = s.now := rfl
@[simp] theorem withPending_txTrace (s : State) (p : List Stimulus) : (s.withPending p).txTrace = s.txTrace := rfl
@[simp] theorem withPending_hostReturns (s : State) (p : List Stimulus) : (s.withPending p).hostReturns = s.hostReturns := rfl
@[simp] theorem withPending_producerReturns (s : State) (p : List Stimulus) : (s.withPending p).producerReturns = s.producerReturns := rfl
@[simp] theorem withPending_pending (s : State) (p : List Stimulus) : (s.withPending p).pending = p := rfl

/-! ## returnHost -/

@[simp] theorem returnHost_cfg (s : State) (st : Status) (v : Payload) : (returnHost s st v).cfg = s.cfg := rfl
@[simp] theorem returnHost_frame (s : State) (st : Status) (v : Payload) : (returnHost s st v).frame = s.frame := rfl
@[simp] theorem returnHost_txbuf (s : State) (st : Status) (v : Payload) : (returnHost s st v).txbuf = s.txbuf := rfl
@[simp] theorem returnHost_rxbuf (s : State) (st : Status) (v : Payload) : (returnHost s st v).rxbuf = s.rxbuf := rfl
@[simp] theorem returnHost_ring (s : State) (st : Status) (v : Payload) : (returnHost s st v).ring = s.ring := rfl
@[simp] theorem returnHost_txLen (s : State) (st : Status) (v : Payload) : (returnHost s st v).txLen = s.txLen := rfl
@[simp] theorem returnHost_txIdx (s : State) (st : Status) (v : Payload) : (returnHost s st v).txIdx = s.txIdx := rfl
@[simp] theorem returnHost_txT0 (s : State) (st : Status) (v : Payload) : (returnHost s st v).txT0 = s.txT0 := rfl
@[simp] theorem returnHost_rxLen (s : State) (st : Status) (v : Payload) : (returnHost s st v).rxLen = s.rxLen := rfl
@[simp] theorem returnHost_rxArmed (s : State) (st : Status) (v : Payload) : (returnHost s st v).rxArmed = s.rxArmed := rfl
@[simp] theorem returnHost_frameArrived (s : State) (st : Status) (v : Payload) : (returnHost s st v).frameArrived = s.frameArrived := rfl
@[simp] theorem returnHost_rxT0 (s : State) (st : Status) (v : Payload) : (returnHost s st v).rxT0 = s.rxT0 := rfl
@[simp] theorem returnHost_sync (s : State) (st : Status) (v : Payload) : (returnHost s st v).sync = s.sync := rfl
@[simp] theorem returnHost_hostop (s : State) (st : Status) (v : Payload) : (returnHost s st v).hostop = s.hostop := rfl
@[simp] theorem returnHost_head (s : State) (st : Status) (v : Payload) : (returnHost s st v).head = s.head := rfl
@[simp] theorem returnHost_tail (s : State) (st : Status) (v : Payload) : (returnHost s st v).tail = s.tail := rfl
@[simp] theorem returnHost_now (s : State) (st : Status) (v : Payload) : (returnHost s st v).now = s.now := rfl
@[simp] theorem returnHost_txTrace (s : State) (st : Status) (v : Payload) : (returnHost s st v).txTrace = s.txTrace := rfl
@[simp] theorem returnHost_hostReturns (s : State) (st : Status) (v : Payload) : (returnHost s st v).hostReturns = s.hostReturns ++ [{ status := st, value := v }] := rfl
@[simp] theorem returnHost_producerReturns (s : State) (st : Status) (v : Payload) : (returnHost s st v).producerReturns = s.producerReturns := rfl
@[simp] theorem returnHost_pending (s : State) (st : Status) (v : Payload) : (returnHost s st v).pending = s.pending := rfl

/-! ## returnProducer -/

@[simp] theorem returnProducer_cfg (s : State) (st : Status) : (returnProducer s st).cfg = s.cfg := rfl
@[simp] theorem returnProducer_frame (s : State) (st : Status) : (returnProducer s st).frame = s.frame := rfl
@[simp] theorem returnProducer_txbuf (s : State) (st : Status) : (returnProducer s st).txbuf = s.txbuf := rfl
@[simp] theorem returnProducer_rxbuf (s : State) (st : Status) : (returnProducer s st).rxbuf = s.rxbuf := rfl
@[simp] theorem returnProducer_ring (s : State) (st : Status) : (returnProducer s st).ring = s.ring := rfl
@[simp] theorem returnProducer_txLen (s : State) (st : Status) : (returnProducer s st).txLen = s.txLen := rfl
@[simp] theorem returnProducer_txIdx (s : State) (st : Status) : (returnProducer s st).txIdx = s.txIdx := rfl
@[simp] theorem returnProducer_txT0 (s : State) (st : Status) : (returnProducer s st).txT0 = s.txT0 := rfl
@[simp] theorem returnProducer_rxLen (s : State) (st : Status) : (returnProducer s st).rxLen = s.rxLen := rfl
@[simp] theorem returnProducer_rxArmed (s : State) (st : Status) : (returnProducer s st).rxArmed = s.rxArmed := rfl
@[simp] theorem returnProducer_frameArrived (s : State) (st : Status) : (returnProducer s st).frameArrived = s.frameArrived := rfl
@[simp] theorem returnProducer_rxT0 (s : State) (st : Status) : (returnProducer s st).rxT0 = s.rxT0 := rfl
@[simp] theorem returnProducer_sync (s : State) (st : Status) : (returnProducer s st).sync = s.sync := rfl
@[simp] theorem returnProducer_hostop (s : State) (st : Status) : (returnProducer s st).hostop = s.hostop := rfl
@[simp] theorem returnProducer_head (s : State) (st : Status) : (returnProducer s st).head = s.head := rfl
@[simp] theorem returnProducer_tail (s : State) (st : Status) : (returnProducer s st).tail = s.tail := rfl
@[simp] theorem returnProducer_now (s : State) (st : Status) : (returnProducer s st).now = s.now := rfl
@[simp] theorem returnProducer_txTrace (s : State) (st : Status) : (returnProducer s st).txTrace = s.txTrace := rfl
@[simp] theorem returnProducer_hostReturns (s : State) (st : Status) : (returnProducer s st).hostReturns = s.hostReturns := rfl
@[simp] theorem returnProducer_producerReturns (s : State) (st : Status) : (returnProducer s st).producerReturns = s.producerReturns ++ [st] := rfl
@[simp] theorem returnProducer_pending (s : State) (st : Status) : (returnProducer s st).pending = s.pending := rfl

/-! ## startSend -/

@[simp] theorem startSend_cfg (s : State) : (startSend s).cfg = s.cfg := rfl
@[simp] theorem startSend_frame (s : State) : (startSend s).frame = s.frame := rfl
@[simp] theorem startSend_txbuf (s : State) : (startSend s).txbuf = s.txbuf := rfl
@[simp] theorem startSend_rxbuf (s : State) : (startSend s).rxbuf = s.rxbuf := rfl
@[simp] theorem startSend_ring (s : State) : (startSend s).ring = s.ring := rfl
@[simp] theorem startSend_txLen (s : State) : (startSend s).txLen = s.txLen := rfl
@[simp] theorem startSend_txIdx (s : State) : (startSend s).txIdx = 0 := rfl
@[simp] theorem startSend_txT0 (s : State) : (startSend s).txT0 = s.now := rfl
@[simp] theorem startSend_rxLen (s : State) : (startSend s).rxLen = s.rxLen := rfl
@[simp] theorem startSend_rxArmed (s : State) : (startSend s).rxArmed = s.rxArmed := rfl
@[simp] theorem startSend_frameArrived (s : State) : (startSend s).frameArrived = s.frameArrived := rfl
@[simp] theorem startSend_rxT0 (s : State) : (startSend s).rxT0 = s.rxT0 := rfl
@[simp] theorem startSend_sync (s : State) : (startSend s).sync = s.sync := rfl
@[simp] theorem startSend_hostop (s : State) : (startSend s).hostop = .sending := rfl
@[simp] theorem startSend_head (s : State) : (startSend s).head = s.head := rfl
@[simp] theorem startSend_tail (s : State) : (startSend s).tail = s.tail := rfl
@[simp] theorem startSend_now (s : State) : (startSend s).now = s.now := rfl
@[simp] theorem startSend_txTrace (s : State) : (startSend s).txTrace = s.txTrace := rfl
@[simp] theorem startSend_hostReturns (s : State) : (startSend s).hostReturns = s.hostReturns := rfl
@[simp] theorem startSend_producerReturns (s : State) : (startSend s).producerReturns = s.producerReturns := rfl
@[simp] theorem startSend_pending (s : State) : (startSend s).pending = s.pending := rfl

/-! ## emitByte -/

@[simp] theorem emitByte_cfg (b : Byte) (s : State) : (emitByte b s).cfg = s.cfg := rfl
@[simp] theorem emitByte_frame (b : Byte) (s : State) : (emitByte b s).frame = s.frame := rfl
@[simp] theorem emitByte_txbuf (b : Byte) (s : State) : (emitByte b s).txbuf = s.txbuf := rfl
@[simp] theorem emitByte_rxbuf (b : Byte) (s : State) : (emitByte b s).rxbuf = s.rxbuf := rfl
@[simp] theorem emitByte_ring (b : Byte) (s : State) : (emitByte b s).ring = s.ring := rfl
@[simp] theorem emitByte_txLen (b : Byte) (s : State) : (emitByte b s).txLen = s.txLen := rfl
@[simp] theorem emitByte_txIdx (b : Byte) (s : State) : (emitByte b s).txIdx = s.txIdx + 1 := rfl
@[simp] theorem emitByte_txT0 (b : Byte) (s : State) : (emitByte b s).txT0 = s.txT0 := rfl
@[simp] theorem emitByte_rxLen (b : Byte) (s : State) : (emitByte b s).rxLen = s.rxLen := rfl
@[simp] theorem emitByte_rxArmed (b : Byte) (s : State) : (emitByte b s).rxArmed = s.rxArmed := rfl
@[simp] theorem emitByte_frameArrived (b : Byte) (s : State) : (emitByte b s).frameArrived = s.frameArrived := rfl
@[simp] theorem emitByte_rxT0 (b : Byte) (s : State) : (emitByte b s).rxT0 = s.rxT0 := rfl
@[simp] theorem emitByte_sync (b : Byte) (s : State) : (emitByte b s).sync = s.sync := rfl
@[simp] theorem emitByte_hostop (b : Byte) (s : State) : (emitByte b s).hostop = s.hostop := rfl
@[simp] theorem emitByte_head (b : Byte) (s : State) : (emitByte b s).head = s.head := rfl
@[simp] theorem emitByte_tail (b : Byte) (s : State) : (emitByte b s).tail = s.tail := rfl
@[simp] theorem emitByte_now (b : Byte) (s : State) : (emitByte b s).now = s.now := rfl
@[simp] theorem emitByte_txTrace (b : Byte) (s : State) : (emitByte b s).txTrace = s.txTrace ++ [b] := rfl
@[simp] theorem emitByte_hostReturns (b : Byte) (s : State) : (emitByte b s).hostReturns = s.hostReturns := rfl
@[simp] theorem emitByte_producerReturns (b : Byte) (s : State) : (emitByte b s).producerReturns = s.producerReturns := rfl
@[simp] theorem emitByte_pending (b : Byte) (s : State) : (emitByte b s).pending = s.pending := rfl

/-! ## completeSend -/

@[simp] theorem completeSend_cfg (s : State) : (completeSend s).cfg = s.cfg := rfl
@[simp] theorem completeSend_frame (s : State) : (completeSend s).frame = s.frame := rfl
@[simp] theorem completeSend_txbuf (s : State) : (completeSend s).txbuf = s.txbuf := rfl
@[simp] theorem completeSend_rxbuf (s : State) : (completeSend s).rxbuf = s.rxbuf := rfl
@[simp] theorem completeSend_ring (s : State) : (completeSend s).ring = s.ring := rfl
@[simp] theorem completeSend_txLen (s : State) : (completeSend s).txLen = s.txLen := rfl
@[simp] theorem completeSend_txIdx (s : State) : (completeSend s).txIdx = s.txIdx := rfl
@[simp] theorem completeSend_txT0 (s : State) : (completeSend s).txT0 = s.txT0 := rfl
@[simp] theorem completeSend_rxLen (s : State) : (completeSend s).rxLen = s.rxLen := rfl
@[simp] theorem completeSend_rxArmed (s : State) : (completeSend s).rxArmed = s.rxArmed := rfl
@[simp] theorem completeSend_frameArrived (s : State) : (completeSend s).frameArrived = s.frameArrived := rfl
@[simp] theorem completeSend_rxT0 (s : State) : (completeSend s).rxT0 = s.rxT0 := rfl
@[simp] theorem completeSend_sync (s : State) : (completeSend s).sync = if s.sync = .armed then .sent else s.sync := rfl
@[simp] theorem completeSend_hostop (s : State) : (completeSend s).hostop = .idle := rfl
@[simp] theorem completeSend_head (s : State) : (completeSend s).head = s.head := rfl
@[simp] theorem completeSend_tail (s : State) : (completeSend s).tail = s.tail := rfl
@[simp] theorem completeSend_now (s : State) : (completeSend s).now = s.now := rfl
@[simp] theorem completeSend_txTrace (s : State) : (completeSend s).txTrace = s.txTrace := rfl
@[simp] theorem completeSend_hostReturns (s : State) : (completeSend s).hostReturns = s.hostReturns ++ [{ status := .ok }] := rfl
@[simp] theorem completeSend_producerReturns (s : State) : (completeSend s).producerReturns = s.producerReturns := rfl
@[simp] theorem completeSend_pending (s : State) : (completeSend s).pending = s.pending := rfl

/-! ## timeoutSend -/

@[simp] theorem timeoutSend_cfg (s : State) : (timeoutSend s).cfg = s.cfg := rfl
@[simp] theorem timeoutSend_frame (s : State) : (timeoutSend s).frame = s.frame := rfl
@[simp] theorem timeoutSend_txbuf (s : State) : (timeoutSend s).txbuf = s.txbuf := rfl
@[simp] theorem timeoutSend_rxbuf (s : State) : (timeoutSend s).rxbuf = s.rxbuf := rfl
@[simp] theorem timeoutSend_ring (s : State) : (timeoutSend s).ring = s.ring := rfl
@[simp] theorem timeoutSend_txLen (s : State) : (timeoutSend s).txLen = s.txLen := rfl
@[simp] theorem timeoutSend_txIdx (s : State) : (timeoutSend s).txIdx = s.txIdx := rfl
@[simp] theorem timeoutSend_txT0 (s : State) : (timeoutSend s).txT0 = s.txT0 := rfl
@[simp] theorem timeoutSend_rxLen (s : State) : (timeoutSend s).rxLen = s.rxLen := rfl
@[simp] theorem timeoutSend_rxArmed (s : State) : (timeoutSend s).rxArmed = s.rxArmed := rfl
@[simp] theorem timeoutSend_frameArrived (s : State) : (timeoutSend s).frameArrived = s.frameArrived := rfl
@[simp] theorem timeoutSend_rxT0 (s : State) : (timeoutSend s).rxT0 = s.rxT0 := rfl
@[simp] theorem timeoutSend_sync (s : State) : (timeoutSend s).sync = s.sync := rfl
@[simp] theorem timeoutSend_hostop (s : State) : (timeoutSend s).hostop = .idle := rfl
@[simp] theorem timeoutSend_head (s : State) : (timeoutSend s).head = s.head := rfl
@[simp] theorem timeoutSend_tail (s : State) : (timeoutSend s).tail = s.tail := rfl
@[simp] theorem timeoutSend_now (s : State) : (timeoutSend s).now = s.now := rfl
@[simp] theorem timeoutSend_txTrace (s : State) : (timeoutSend s).txTrace = s.txTrace := rfl
@[simp] theorem timeoutSend_hostReturns (s : State) : (timeoutSend s).hostReturns = s.hostReturns ++ [{ status := .transmitTimeout }] := rfl
@[simp] theorem timeoutSend_producerReturns (s : State) : (timeoutSend s).producerReturns = s.producerReturns := rfl
@[simp] theorem timeoutSend_pending (s : State) : (timeoutSend s).pending = s.pending := rfl

/-! ## armReceive -/

@[simp] theorem armReceive_cfg (s : State) : (armReceive s).cfg = s.cfg := rfl
@[simp] theorem armReceive_frame (s : State) : (armReceive s).frame = s.frame := rfl
@[simp] theorem armReceive_txbuf (s : State) : (armReceive s).txbuf = s.txbuf := rfl
@[simp] theorem armReceive_rxbuf (s : State) : (armReceive s).rxbuf = s.rxbuf := rfl
@[simp] theorem armReceive_ring (s : State) : (armReceive s).ring = s.ring := rfl
@[simp] theorem armReceive_txLen (s : State) : (armReceive s).txLen = s.txLen := rfl
@[simp] theorem armReceive_txIdx (s : State) : (armReceive s).txIdx = s.txIdx := rfl
@[simp] theorem armReceive_txT0 (s : State) : (armReceive s).txT0 = s.txT0 := rfl
@[simp] theorem armReceive_rxLen (s : State) : (armReceive s).rxLen = 0 := rfl
@[simp] theorem armReceive_rxArmed (s : State) : (armReceive s).rxArmed = true := rfl
@[simp] theorem armReceive_frameArrived (s : State) : (armReceive s).frameArrived = false := rfl
@[simp] theorem armReceive_rxT0 (s : State) : (armReceive s).rxT0 = s.rxT0 := rfl
@[simp] theorem armReceive_sync (s : State) : (armReceive s).sync = .armed := rfl
@[simp] theorem armReceive_hostop (s : State) : (armReceive s).hostop = s.hostop := rfl
@[simp] theorem armReceive_head (s : State) : (armReceive s).head = s.head := rfl
@[simp] theorem armReceive_tail (s : State) : (armReceive s).tail = s.tail := rfl
@[simp] theorem armReceive_now (s : State) : (armReceive s).now = s.now := rfl
@[simp] theorem armReceive_txTrace (s : State) : (armReceive s).txTrace = s.txTrace := rfl
@[simp] theorem armReceive_hostReturns (s : State) : (armReceive s).hostReturns = s.hostReturns := rfl
@[simp] theorem armReceive_producerReturns (s : State) : (armReceive s).producerReturns = s.producerReturns := rfl
@[simp] theorem armReceive_pending (s : State) : (armReceive s).pending = s.pending := rfl

/-! ## startWait -/

@[simp] theorem startWait_cfg (s : State) : (startWait s).cfg = s.cfg := rfl
@[simp] theorem startWait_frame (s : State) : (startWait s).frame = s.frame := rfl
@[simp] theorem startWait_txbuf (s : State) : (startWait s).txbuf = s.txbuf := rfl
@[simp] theorem startWait_rxbuf (s : State) : (startWait s).rxbuf = s.rxbuf := rfl
@[simp] theorem startWait_ring (s : State) : (startWait s).ring = s.ring := rfl
@[simp] theorem startWait_txLen (s : State) : (startWait s).txLen = s.txLen := rfl
@[simp] theorem startWait_txIdx (s : State) : (startWait s).txIdx = s.txIdx := rfl
@[simp] theorem startWait_txT0 (s : State) : (startWait s).txT0 = s.txT0 := rfl
@[simp] theorem startWait_rxLen (s : State) : (startWait s).rxLen = s.rxLen := rfl
@[simp] theorem startWait_rxArmed (s : State) : (startWait s).rxArmed = s.rxArmed := rfl
@[simp] theorem startWait_frameArrived (s : State) : (startWait s).frameArrived = s.frameArrived := rfl
@[simp] theorem startWait_rxT0 (s : State) : (startWait s).rxT0 = s.now := rfl
@[simp] theorem startWait_sync (s : State) : (startWait s).sync = .waiting := rfl
@[simp] theorem startWait_hostop (s : State) : (startWait s).hostop = .waiting := rfl
@[simp] theorem startWait_head (s : State) : (startWait s).head = s.head := rfl
@[simp] theorem startWait_tail (s : State) : (startWait s).tail = s.tail := rfl
@[simp] theorem startWait_now (s : State) : (startWait s).now = s.now := rfl
@[simp] theorem startWait_txTrace (s : State) : (startWait s).txTrace = s.txTrace := rfl
@[simp] theorem startWait_hostReturns (s : State) : (startWait s).hostReturns = s.hostReturns := rfl
@[simp] theorem startWait_producerReturns (s : State) : (startWait s).producerReturns = s.producerReturns := rfl
@[simp] theorem startWait_pending (s : State) : (startWait s).pending = s.pending := rfl

/-! ## completeWait -/

@[simp] theorem completeWait_cfg (s : State) : (completeWait s).cfg = s.cfg := rfl
@[simp] theorem completeWait_frame (s : State) : (completeWait s).frame = s.frame := rfl
@[simp] theorem completeWait_txbuf (s : State) : (completeWait s).txbuf = s.txbuf := rfl
@[simp] theorem completeWait_rxbuf (s : State) : (completeWait s).rxbuf = s.rxbuf := rfl
@[simp] theorem completeWait_ring (s : State) : (completeWait s).ring = s.ring := rfl
@[simp] theorem completeWait_txLen (s : State) : (completeWait s).txLen = s.txLen := rfl
@[simp] theorem completeWait_txIdx (s : State) : (completeWait s).txIdx = s.txIdx := rfl
@[simp] theorem completeWait_txT0 (s : State) : (completeWait s).txT0 = s.txT0 := rfl
@[simp] theorem completeWait_rxLen (s : State) : (completeWait s).rxLen = s.rxLen := rfl
@[simp] theorem completeWait_rxArmed (s : State) : (completeWait s).rxArmed = s.rxArmed := rfl
@[simp] theorem completeWait_frameArrived (s : State) : (completeWait s).frameArrived = s.frameArrived := rfl
@[simp] theorem completeWait_rxT0 (s : State) : (completeWait s).rxT0 = s.rxT0 := rfl
@[simp] theorem completeWait_sync (s : State) : (completeWait s).sync = .completed := rfl
@[simp] theorem completeWait_hostop (s : State) : (completeWait s).hostop = .idle := rfl
@[simp] theorem completeWait_head (s : State) : (completeWait s).head = s.head := rfl
@[simp] theorem completeWait_tail (s : State) : (completeWait s).tail = s.tail := rfl
@[simp] theorem completeWait_now (s : State) : (completeWait s).now = s.now := rfl
@[simp] theorem completeWait_txTrace (s : State) : (completeWait s).txTrace = s.txTrace := rfl
@[simp] theorem completeWait_hostReturns (s : State) : (completeWait s).hostReturns = s.hostReturns ++ [{ status := .ok }] := rfl
@[simp] theorem completeWait_producerReturns (s : State) : (completeWait s).producerReturns = s.producerReturns := rfl
@[simp] theorem completeWait_pending (s : State) : (completeWait s).pending = s.pending := rfl

/-! ## timeoutWait -/

@[simp] theorem timeoutWait_cfg (s : State) : (timeoutWait s).cfg = s.cfg := rfl
@[simp] theorem timeoutWait_frame (s : State) : (timeoutWait s).frame = s.frame := rfl
@[simp] theorem timeoutWait_txbuf (s : State) : (timeoutWait s).txbuf = s.txbuf := rfl
@[simp] theorem timeoutWait_rxbuf (s : State) : (timeoutWait s).rxbuf = s.rxbuf := rfl
@[simp] theorem timeoutWait_ring (s : State) : (timeoutWait s).ring = s.ring := rfl
@[simp] theorem timeoutWait_txLen (s : State) : (timeoutWait s).txLen = s.txLen := rfl
@[simp] theorem timeoutWait_txIdx (s : State) : (timeoutWait s).txIdx = s.txIdx := rfl
@[simp] theorem timeoutWait_txT0 (s : State) : (timeoutWait s).txT0 = s.txT0 := rfl
@[simp] theorem timeoutWait_rxLen (s : State) : (timeoutWait s).rxLen = s.rxLen := rfl
@[simp] theorem timeoutWait_rxArmed (s : State) : (timeoutWait s).rxArmed = s.rxArmed := rfl
@[simp] theorem timeoutWait_frameArrived (s : State) : (timeoutWait s).frameArrived = s.frameArrived := rfl
@[simp] theorem timeoutWait_rxT0 (s : State) : (timeoutWait s).rxT0 = s.rxT0 := rfl
@[simp] theorem timeoutWait_sync (s : State) : (timeoutWait s).sync = .timedOut := rfl
@[simp] theorem timeoutWait_hostop (s : State) : (timeoutWait s).hostop = .idle := rfl
@[simp] theorem timeoutWait_head (s : State) : (timeoutWait s).head = s.head := rfl
@[simp] theorem timeoutWait_tail (s : State) : (timeoutWait s).tail = s.tail := rfl
@[simp] theorem timeoutWait_now (s : State) : (timeoutWait s).now = s.now := rfl
@[simp] theorem timeoutWait_txTrace (s : State) : (timeoutWait s).txTrace = s.txTrace := rfl
@[simp] theorem timeoutWait_hostReturns (s : State) : (timeoutWait s).hostReturns = s.hostReturns ++ [{ status := .responseTimeout }] := rfl
@[simp] theorem timeoutWait_producerReturns (s : State) : (timeoutWait s).producerReturns = s.producerReturns := rfl
@[simp] theorem timeoutWait_pending (s : State) : (timeoutWait s).pending = s.pending := rfl

/-! ## completeReceive -/

@[simp] theorem completeReceive_cfg (s : State) : (completeReceive s).cfg = s.cfg := rfl
@[simp] theorem completeReceive_frame (s : State) : (completeReceive s).frame = s.frame := rfl
@[simp] theorem completeReceive_txbuf (s : State) : (completeReceive s).txbuf = s.txbuf := rfl
@[simp] theorem completeReceive_rxbuf (s : State) : (completeReceive s).rxbuf = s.rxbuf := rfl
@[simp] theorem completeReceive_ring (s : State) : (completeReceive s).ring = s.ring := rfl
@[simp] theorem completeReceive_txLen (s : State) : (completeReceive s).txLen = s.txLen := rfl
@[simp] theorem completeReceive_txIdx (s : State) : (completeReceive s).txIdx = s.txIdx := rfl
@[simp] theorem completeReceive_txT0 (s : State) : (completeReceive s).txT0 = s.txT0 := rfl
@[simp] theorem completeReceive_rxLen (s : State) : (completeReceive s).rxLen = s.rxLen := rfl
@[simp] theorem completeReceive_rxArmed (s : State) : (completeReceive s).rxArmed = false := rfl
@[simp] theorem completeReceive_frameArrived (s : State) : (completeReceive s).frameArrived = true := rfl
@[simp] theorem completeReceive_rxT0 (s : State) : (completeReceive s).rxT0 = s.rxT0 := rfl
@[simp] theorem completeReceive_sync (s : State) : (completeReceive s).sync = s.sync := rfl
@[simp] theorem completeReceive_hostop (s : State) : (completeReceive s).hostop = s.hostop := rfl
@[simp] theorem completeReceive_head (s : State) : (completeReceive s).head = s.head := rfl
@[simp] theorem completeReceive_tail (s : State) : (completeReceive s).tail = s.tail := rfl
@[simp] theorem completeReceive_now (s : State) : (completeReceive s).now = s.now := rfl
@[simp] theorem completeReceive_txTrace (s : State) : (completeReceive s).txTrace = s.txTrace := rfl
@[simp] theorem completeReceive_hostReturns (s : State) : (completeReceive s).hostReturns = s.hostReturns := rfl
@[simp] theorem completeReceive_producerReturns (s : State) : (completeReceive s).producerReturns = s.producerReturns := rfl
@[simp] theorem completeReceive_pending (s : State) : (completeReceive s).pending = s.pending := rfl

/-! ## setStore -/

@[simp] theorem setStore_cfg (s : State) (n : StoreName) (m : Memory) : (s.setStore n m).cfg = s.cfg := by cases n <;> rfl
@[simp] theorem setStore_txLen (s : State) (n : StoreName) (m : Memory) : (s.setStore n m).txLen = s.txLen := by cases n <;> rfl
@[simp] theorem setStore_txIdx (s : State) (n : StoreName) (m : Memory) : (s.setStore n m).txIdx = s.txIdx := by cases n <;> rfl
@[simp] theorem setStore_txT0 (s : State) (n : StoreName) (m : Memory) : (s.setStore n m).txT0 = s.txT0 := by cases n <;> rfl
@[simp] theorem setStore_rxLen (s : State) (n : StoreName) (m : Memory) : (s.setStore n m).rxLen = s.rxLen := by cases n <;> rfl
@[simp] theorem setStore_rxArmed (s : State) (n : StoreName) (m : Memory) : (s.setStore n m).rxArmed = s.rxArmed := by cases n <;> rfl
@[simp] theorem setStore_frameArrived (s : State) (n : StoreName) (m : Memory) : (s.setStore n m).frameArrived = s.frameArrived := by cases n <;> rfl
@[simp] theorem setStore_rxT0 (s : State) (n : StoreName) (m : Memory) : (s.setStore n m).rxT0 = s.rxT0 := by cases n <;> rfl
@[simp] theorem setStore_sync (s : State) (n : StoreName) (m : Memory) : (s.setStore n m).sync = s.sync := by cases n <;> rfl
@[simp] theorem setStore_hostop (s : State) (n : StoreName) (m : Memory) : (s.setStore n m).hostop = s.hostop := by cases n <;> rfl
@[simp] theorem setStore_head (s : State) (n : StoreName) (m : Memory) : (s.setStore n m).head = s.head := by cases n <;> rfl
@[simp] theorem setStore_tail (s : State) (n : StoreName) (m : Memory) : (s.setStore n m).tail = s.tail := by cases n <;> rfl
@[simp] theorem setStore_now (s : State) (n : StoreName) (m : Memory) : (s.setStore n m).now = s.now := by cases n <;> rfl
@[simp] theorem setStore_txTrace (s : State) (n : StoreName) (m : Memory) : (s.setStore n m).txTrace = s.txTrace := by cases n <;> rfl
@[simp] theorem setStore_hostReturns (s : State) (n : StoreName) (m : Memory) : (s.setStore n m).hostReturns = s.hostReturns := by cases n <;> rfl
@[simp] theorem setStore_producerReturns (s : State) (n : StoreName) (m : Memory) : (s.setStore n m).producerReturns = s.producerReturns := by cases n <;> rfl
@[simp] theorem setStore_pending (s : State) (n : StoreName) (m : Memory) : (s.setStore n m).pending = s.pending := by cases n <;> rfl
@[simp] theorem setStore_frame_frame (s : State) (m : Memory) : (s.setStore .frame m).frame = m := rfl
@[simp] theorem setStore_frame_txbuf (s : State) (m : Memory) : (s.setStore .frame m).txbuf = s.txbuf := rfl
@[simp] theorem setStore_frame_rxbuf (s : State) (m : Memory) : (s.setStore .frame m).rxbuf = s.rxbuf := rfl
@[simp] theorem setStore_frame_ring (s : State) (m : Memory) : (s.setStore .frame m).ring = s.ring := rfl
@[simp] theorem setStore_txbuf_frame (s : State) (m : Memory) : (s.setStore .txbuf m).frame = s.frame := rfl
@[simp] theorem setStore_txbuf_txbuf (s : State) (m : Memory) : (s.setStore .txbuf m).txbuf = m := rfl
@[simp] theorem setStore_txbuf_rxbuf (s : State) (m : Memory) : (s.setStore .txbuf m).rxbuf = s.rxbuf := rfl
@[simp] theorem setStore_txbuf_ring (s : State) (m : Memory) : (s.setStore .txbuf m).ring = s.ring := rfl
@[simp] theorem setStore_rxbuf_frame (s : State) (m : Memory) : (s.setStore .rxbuf m).frame = s.frame := rfl
@[simp] theorem setStore_rxbuf_txbuf (s : State) (m : Memory) : (s.setStore .rxbuf m).txbuf = s.txbuf := rfl
@[simp] theorem setStore_rxbuf_rxbuf (s : State) (m : Memory) : (s.setStore .rxbuf m).rxbuf = m := rfl
@[simp] theorem setStore_rxbuf_ring (s : State) (m : Memory) : (s.setStore .rxbuf m).ring = s.ring := rfl
@[simp] theorem setStore_ring_frame (s : State) (m : Memory) : (s.setStore .ring m).frame = s.frame := rfl
@[simp] theorem setStore_ring_txbuf (s : State) (m : Memory) : (s.setStore .ring m).txbuf = s.txbuf := rfl
@[simp] theorem setStore_ring_rxbuf (s : State) (m : Memory) : (s.setStore .ring m).rxbuf = s.rxbuf := rfl
@[simp] theorem setStore_ring_ring (s : State) (m : Memory) : (s.setStore .ring m).ring = m := rfl
@[simp] theorem store_frame (s : State) : s.store .frame = s.frame := rfl
@[simp] theorem store_txbuf (s : State) : s.store .txbuf = s.txbuf := rfl
@[simp] theorem store_rxbuf (s : State) : s.store .rxbuf = s.rxbuf := rfl
@[simp] theorem store_ring (s : State) : s.store .ring = s.ring := rfl
@[simp] theorem storeCap_frame (s : State) : s.storeCap .frame = s.cfg.frameCap := rfl
@[simp] theorem storeCap_txbuf (s : State) : s.storeCap .txbuf = s.cfg.frameCap + 1 := rfl
@[simp] theorem storeCap_rxbuf (s : State) : s.storeCap .rxbuf = s.cfg.frameCap := rfl
@[simp] theorem storeCap_ring (s : State) : s.storeCap .ring = s.cfg.ringCap := rfl

end Sys2Proof.Machine
end

