-- ==== Sys2Proof/Laws/Ops.lean ====
section
/-! SUPPORT. What each shared operation of Machine/Ops.lean can do, said once: the accesses to stores, the sequencing of
outcomes, and the guard of a HOST operation. -/

namespace Sys2Proof.Machine

/-! ## Accesses -/

/-- A read of a store answers exactly the byte written there, inside the store. -/
theorem readStore_ok {n : StoreName} {i : Nat} {s : State} {b : Byte} :
    readStore n i s = .ok b ↔ i < s.storeCap n ∧ (s.store n).read i = some b := by
  unfold readStore
  split
  · next h => split <;> simp_all
  · next h => simp [h]

/-- A write of a store answers the state with that byte written, inside the store. -/
theorem writeStore_ok {n : StoreName} {i : Nat} {v : Byte} {s t : State} :
    writeStore n i v s = .ok t ↔ i < s.storeCap n ∧ t = s.setStore n ((s.store n).write i v) := by
  unfold writeStore
  split
  · next h => simp [h, eq_comm]
  · next h => simp [h]

/-- A write of a sequence answers the state with the sequence written, all of it inside the store. -/
theorem writeRange_ok {n : StoreName} {i : Nat} {bs : List Byte} {s t : State} :
    writeRange n i bs s = .ok t ↔
      i + bs.length ≤ s.storeCap n ∧ t = s.setStore n ((s.store n).writeBytes i bs) := by
  unfold writeRange
  split
  · next h => simp [h, eq_comm]
  · next h => simp [h]

/-- Reading a range answers the bytes written there, in order. -/
theorem readRange_ok {n : StoreName} {s : State} : ∀ {k i : Nat} {bs : List Byte},
    readRange n s i k = .ok bs ↔
      (k = 0 ∨ i + k ≤ s.storeCap n) ∧ bs.length = k ∧ ∀ j < k, (s.store n).read (i + j) = bs[j]?
  | 0, i, bs => by cases bs <;> simp [readRange]
  | k + 1, i, bs => by
    rw [readRange]
    constructor
    · intro h
      split at h
      · next b hb =>
        split at h
        · next rest hrest =>
          obtain rfl : b :: rest = bs := by simpa using h
          obtain ⟨hcap, hread⟩ := readStore_ok.1 hb
          obtain ⟨hk, hlen, hall⟩ := readRange_ok.1 hrest
          refine ⟨Or.inr (by omega), by simp [hlen], ?_⟩
          intro j hj
          cases j with
          | zero => simpa using hread
          | succ j => simpa [Nat.add_assoc, Nat.add_comm 1 j] using hall j (by omega)
        · simp at h
      · simp at h
    · rintro ⟨hcap, hlen, hall⟩
      cases bs with
      | nil => simp at hlen
      | cons b rest =>
        have hb : readStore n i s = .ok b := readStore_ok.2 ⟨by omega, by simpa using hall 0 (by omega)⟩
        have hrest : readRange n s (i + 1) k = .ok rest := by
          refine readRange_ok.2 ⟨by omega, by simpa using hlen, ?_⟩
          intro j hj
          simpa [Nat.add_assoc, Nat.add_comm 1 j] using hall (j + 1) (by omega)
        simp [hb, hrest]

/-- A range of written bytes inside the store can be read. -/
theorem readRange_total {n : StoreName} {s : State} {i k : Nat} (hcap : i + k ≤ s.storeCap n)
    (hall : ∀ j < k, ((s.store n).read (i + j)).isSome = true) : ∃ bs, readRange n s i k = .ok bs := by
  induction k generalizing i with
  | zero => exact ⟨[], rfl⟩
  | succ k ih =>
    obtain ⟨b, hb⟩ := Option.isSome_iff_exists.1 (hall 0 (by omega))
    obtain ⟨bs, hbs⟩ := ih (i := i + 1) (by omega) (fun j hj => by
      simpa [Nat.add_assoc, Nat.add_comm 1 j] using hall (j + 1) (by omega))
    exact ⟨b :: bs, by simp [readRange, readStore_ok.2 ⟨(by omega : i < s.storeCap n), hb⟩, hbs]⟩

/-! ## Outcomes -/

@[simp] theorem andThen_of_next (s : State) (k : State → Outcome) : andThen (.next s) k = k s := rfl
@[simp] theorem andThen_of_fault (f : Fault) (k : State → Outcome) : andThen (.fault f) k = .fault f := rfl
@[simp] theorem andThen_of_refused (r : Refusal) (k : State → Outcome) : andThen (.refused r) k = .refused r := rfl

@[simp] theorem withValue_of_ok {α : Type} (a : α) (k : α → Outcome) : withValue (.ok a) k = k a := rfl
@[simp] theorem withValue_of_error {α : Type} (f : Fault) (k : α → Outcome) : withValue (.error f) k = .fault f := rfl

/-- A sequence answers a next state exactly when both parts do. -/
theorem andThen_next {o : Outcome} {k : State → Outcome} {t : State} :
    andThen o k = .next t ↔ ∃ s, o = .next s ∧ k s = .next t := by
  cases o <;> simp

/-- A sequence faults where its first part does, or its second part on the state of the first. -/
theorem andThen_fault {o : Outcome} {k : State → Outcome} {f : Fault} :
    andThen o k = .fault f ↔ o = .fault f ∨ ∃ s, o = .next s ∧ k s = .fault f := by
  cases o <;> simp

/-- An access that is gone on from answers a next state exactly when the access succeeds and the rest does. -/
theorem withValue_next {α : Type} {x : Except Fault α} {k : α → Outcome} {t : State} :
    withValue x k = .next t ↔ ∃ a, x = .ok a ∧ k a = .next t := by
  cases x <;> simp

/-- Where an access that is gone on from faults. -/
theorem withValue_fault {α : Type} {x : Except Fault α} {k : α → Outcome} {f : Fault} :
    withValue x k = .fault f ↔ x = .error f ∨ ∃ a, x = .ok a ∧ k a = .fault f := by
  cases x <;> simp

/-- A HOST operation runs while `HOSTOP` is `IDLE`. -/
@[simp] theorem hostStep_idle {s : State} {k : State → Outcome} (h : s.hostop = .idle) : hostStep s k = k s := by
  simp [hostStep, h]

/-- A HOST operation is refused while `HOSTOP` is not `IDLE`. -/
theorem hostStep_blocked {s : State} {k : State → Outcome} (h : s.hostop ≠ .idle) :
    hostStep s k = .refused .hostBlocked := by
  unfold hostStep
  split <;> simp_all

/-- A HOST operation answers a next state only from an idle command port. -/
theorem hostStep_next {s t : State} {k : State → Outcome} :
    hostStep s k = .next t ↔ s.hostop = .idle ∧ k s = .next t := by
  by_cases h : s.hostop = .idle
  · simp [h]
  · simp [hostStep_blocked h, h]

/-- A HOST operation faults only from an idle command port. -/
theorem hostStep_fault {s : State} {k : State → Outcome} {f : Fault} :
    hostStep s k = .fault f ↔ s.hostop = .idle ∧ k s = .fault f := by
  by_cases h : s.hostop = .idle
  · simp [h]
  · simp [hostStep_blocked h, h]

@[simp] theorem finish_next {s t : State} {st : Status} {v : Payload} :
    finish s st v = .next t ↔ returnHost s st v = t := by simp [finish]

@[simp] theorem finish_not_fault {s : State} {st : Status} {v : Payload} {f : Fault} :
    ¬ finish s st v = .fault f := by simp [finish]

/-- The schedule is empty, or its first entry is taken and the rest of it is left. -/
theorem fetch_cases (s : State) :
    (s.pending = [] ∧ fetch s = none) ∨
    ∃ x rest, s.pending = x :: rest ∧ fetch s = some (x, s.withPending rest) := by
  unfold fetch
  cases h : s.pending with
  | nil => exact .inl ⟨rfl, rfl⟩
  | cons x rest => exact .inr ⟨x, rest, rfl, rfl⟩

end Sys2Proof.Machine
end

