-- ==== Sys2Proof/Laws/Codec.lean ====
section
/-! SUPPORT. What each shared operation of the families can do, said once: encode, compact, receive, the ring's write,
and one step of the machine. -/

namespace Sys2Proof.Machine

/-! ## Views -/

@[simp] theorem nib_length (v : Byte) : (nib v).length = 2 := rfl

theorem padTo_length {n : Nat} {bs : List Byte} (h : bs.length ≤ n) : (padTo n bs).length = n := by
  simp [padTo]; omega

@[simp] theorem headText_length (cmd t1 : Byte) (d : Descriptor) : (headText cmd t1 d).length = 6 := rfl

@[simp] theorem nameText_length (d : Descriptor) : (nameText d).length = d.addr.length + 3 := rfl

@[simp] theorem payloadText_length (data : List Byte) : (payloadText data).length = data.length := by
  simp [payloadText]

/-- The view of a request whose descriptor fits is no longer than the largest view (R92). -/
theorem requestView_length {cfg : Config} {c : Command} (h : c.fits cfg) :
    (requestView cfg c).length ≤ cfg.nameCap + cfg.dataCap + 11 := by
  obtain ⟨hn, hd⟩ := h
  have hp : (padTo cfg.nameCap (nameText c.desc)).length = cfg.nameCap := padTo_length (by simpa using hn)
  have hq : (padTo cfg.dataCap (payloadText c.payload)).length = cfg.dataCap := padTo_length (by simpa using hd)
  cases c <;> simp only [Command.desc, Command.payload] at hp hq <;> simp [requestView, hp] <;> omega

theorem frameImage_length {cfg : Config} {c : Command} (h : (requestView cfg c).length ≤ cfg.frameCap) :
    (frameImage cfg c).length = cfg.frameCap := padTo_length h

/-! ## Encode -/

/-- The encode stage answers a next state exactly for a descriptor in bounds whose view fits `FRAME`, and writes all
of `FRAME` and nothing else. -/
theorem encodeFrame_next {c : Command} {s t : State} :
    encodeFrame c s = .next t ↔ c.fits s.cfg ∧ (requestView s.cfg c).length ≤ s.cfg.frameCap ∧
      t = { s with frame := Memory.ofBytes 0 (frameImage s.cfg c) } := by
  unfold encodeFrame Command.fits
  split
  · next h => simp [h]
  · next h =>
    split
    · next h2 => simp; omega
    · next h2 =>
      split
      · next h3 => simp; omega
      · next h3 =>
        simp only [not_not] at h
        simp only [Host.Outcome.next.injEq, eq_comm (a := t)]
        constructor
        · intro e; exact ⟨⟨h, by omega⟩, by omega, e⟩
        · rintro ⟨-, -, e⟩; exact e

/-- Under the constraints of R5 a descriptor in bounds is encoded. -/
theorem encodeFrame_of_fits {c : Command} {s : State} (hv : s.cfg.Valid) (h : c.fits s.cfg) :
    encodeFrame c s = .next { s with frame := Memory.ofBytes 0 (frameImage s.cfg c) } := by
  have hlen := requestView_length h
  exact encodeFrame_next.2 ⟨h, by have := hv.2.2.1; omega, rfl⟩

/-- The encode stage faults only where the parameters break R5. -/
theorem encodeFrame_no_fault {c : Command} {s : State} {f : Fault} (hv : s.cfg.Valid) :
    encodeFrame c s ≠ .fault f := by
  intro h
  by_cases hc : c.fits s.cfg
  · rw [encodeFrame_of_fits hv hc] at h; cases h
  · unfold encodeFrame at h
    split at h
    · cases h
    · split at h
      · cases h
      · next h1 h2 => exact hc ⟨by simpa using h1, by omega⟩

/-- The bytes of a frame as the encode stage leaves them. -/
theorem read_encoded (cfg : Config) (c : Command) (i : Nat) :
    (Memory.ofBytes 0 (frameImage cfg c)).read i = (frameImage cfg c)[i]? := by
  simp [Memory.read_ofBytes]

/-! ## Compact -/

/-- The bytes a scan copies out of a byte sequence: those up to and including the first EOT, less the zero bytes. -/
def copied (bs : List Byte) : List Byte × Bool :=
  ((bs.takeWhile fun b => decide (b ≠ Config.EOT)).filter (fun b => decide (b ≠ 0x00#8)) ++
    (if Config.EOT ∈ bs then [Config.EOT] else []), decide (Config.EOT ∈ bs))

/-- The scan over written bytes answers the bytes it copies and whether it met the marker. -/
theorem scanFrame_of_written {s : State} : ∀ {bs : List Byte} {i : Nat}, i + bs.length ≤ s.cfg.frameCap →
    (∀ j < bs.length, s.frame.read (i + j) = bs[j]?) → scanFrame s i bs.length = .ok (copied bs)
  | [], _, _, _ => by simp [scanFrame, copied]
  | b :: bs, i, hcap, hall => by
    simp only [List.length_cons] at hcap
    have hb : readStore .frame i s = .ok b :=
      readStore_ok.2 ⟨by simp; omega, by simpa using hall 0 (by simp)⟩
    have hrest := scanFrame_of_written (s := s) (bs := bs) (i := i + 1) (by omega) (fun j hj => by
      simpa [Nat.add_assoc, Nat.add_comm 1 j] using hall (j + 1) (by simpa using hj))
    rw [List.length_cons, scanFrame, hb]
    by_cases he : b = Config.EOT
    · simp [he, copied]
    · simp only [he, if_false, hrest]
      have he' : Config.EOT ≠ b := Ne.symm he
      by_cases hz : b = 0x00#8
      · subst hz
        simp [copied, he, he']
      · simp [copied, he, he', hz]

/-- What any scan answers: at most as many bytes as it looked at, none of them zero, the marker exactly at the end of a
scan that met it. -/
theorem scanFrame_ok {s : State} : ∀ {k i : Nat} {out : List Byte} {found : Bool},
    scanFrame s i k = .ok (out, found) → out.length ≤ k ∧
      if found then ∃ body, out = body ++ [Config.EOT] ∧ ∀ b ∈ body, b ≠ 0x00#8 ∧ b ≠ Config.EOT
      else ∀ b ∈ out, b ≠ 0x00#8 ∧ b ≠ Config.EOT
  | 0, i, out, found, h => by
    simp only [scanFrame, Except.ok.injEq, Prod.mk.injEq] at h
    obtain ⟨rfl, rfl⟩ := h
    simp
  | k + 1, i, out, found, h => by
    rw [scanFrame] at h
    split at h
    · cases h
    · next b hb =>
      split at h
      · next he =>
        simp only [Except.ok.injEq, Prod.mk.injEq] at h
        obtain ⟨rfl, rfl⟩ := h
        exact ⟨by simp, [], by simp [he], by simp⟩
      · next he =>
        split at h
        · cases h
        · next out' found' hrest =>
          obtain ⟨hlen, hout⟩ := scanFrame_ok hrest
          split at h
          · simp only [Except.ok.injEq, Prod.mk.injEq] at h
            obtain ⟨rfl, rfl⟩ := h
            exact ⟨by omega, hout⟩
          · next hz =>
            simp only [Except.ok.injEq, Prod.mk.injEq] at h
            obtain ⟨rfl, rfl⟩ := h
            refine ⟨by simpa using hlen, ?_⟩
            cases found' with
            | true =>
              obtain ⟨body, rfl, hbody⟩ := hout
              exact ⟨b :: body, rfl, List.forall_mem_cons.2 ⟨⟨hz, he⟩, hbody⟩⟩
            | false => exact List.forall_mem_cons.2 ⟨⟨hz, he⟩, hout⟩

/-- What the compact stage answers: `OK` with the compacted frame and its terminator in `TXBUF`, or
`TERMINATOR_MISSING` with nothing to transmit. -/
theorem compactFrame_ok {s t : State} {st : Status} (h : compactFrame s = .ok (t, st)) :
    ∃ out found, scanFrame s 0 s.cfg.frameCap = .ok (out, found) ∧
      ((found = true ∧ st = .ok ∧
        t = { s with txbuf := s.txbuf.writeBytes 0 (out ++ [0x00#8]), txLen := out.length }) ∨
       (found = false ∧ st = .terminatorMissing ∧
        t = { s with txbuf := s.txbuf.writeBytes 0 out, txLen := 0 })) := by
  unfold compactFrame at h
  split at h
  · cases h
  · next out hs =>
    split at h
    · cases h
    · next u hu =>
      simp only [Except.ok.injEq, Prod.mk.injEq] at h
      obtain ⟨rfl, rfl⟩ := h
      obtain ⟨-, rfl⟩ := writeRange_ok.1 hu
      exact ⟨out, true, hs, .inl ⟨rfl, rfl, rfl⟩⟩
  · next out hs =>
    split at h
    · cases h
    · next u hu =>
      simp only [Except.ok.injEq, Prod.mk.injEq] at h
      obtain ⟨rfl, rfl⟩ := h
      obtain ⟨-, rfl⟩ := writeRange_ok.1 hu
      exact ⟨out, false, hs, .inr ⟨rfl, rfl, rfl⟩⟩

/-- The compact stage after a scan: the write into `TXBUF` always has room. -/
theorem compactFrame_of_scan {s : State} {out : List Byte} {found : Bool}
    (h : scanFrame s 0 s.cfg.frameCap = .ok (out, found)) :
    compactFrame s = .ok (if found then
      ({ s with txbuf := s.txbuf.writeBytes 0 (out ++ [0x00#8]), txLen := out.length }, .ok)
      else ({ s with txbuf := s.txbuf.writeBytes 0 out, txLen := 0 }, .terminatorMissing)) := by
  have hlen := (scanFrame_ok h).1
  unfold compactFrame
  cases found with
  | true =>
    have hw := (writeRange_ok (n := .txbuf) (i := 0) (bs := out ++ [0x00#8]) (s := s)).2 ⟨by simp; omega, rfl⟩
    simp [h, hw, State.setStore]
  | false =>
    have hw := (writeRange_ok (n := .txbuf) (i := 0) (bs := out) (s := s)).2 ⟨by simp; omega, rfl⟩
    simp [h, hw, State.setStore]

/-! ## Receive -/

/-- What one received byte does: it is dropped while no receive is armed; else it is stored at `RX_LEN`, counted, and
the byte that fills the buffer completes the receive. -/
theorem receiveByte_ok {b : Byte} {s t : State} :
    receiveByte b s = .ok t ↔
      (s.rxArmed = false ∧ t = s) ∨
      (s.rxArmed = true ∧ s.rxLen < s.cfg.frameCap ∧
        t = countReceived { s with rxbuf := s.rxbuf.write s.rxLen b }) := by
  unfold receiveByte
  by_cases h : s.rxArmed = true
  · rw [if_pos h]
    constructor
    · intro e
      split at e
      · cases e
      · next u hu =>
        obtain ⟨hlt, rfl⟩ := writeStore_ok.1 hu
        cases e
        exact .inr ⟨h, hlt, rfl⟩
    · rintro (⟨h', -⟩ | ⟨-, hlt, rfl⟩)
      · rw [h] at h'; cases h'
      · rw [(writeStore_ok (n := .rxbuf) (v := b)).2 ⟨hlt, rfl⟩]; rfl
  · simp [h, eq_comm]

/-- A received byte that is counted leaves these fields alone. -/
theorem countReceived_eq (s : State) :
    countReceived s = { s with
      rxLen := s.rxLen + 1
      rxArmed := if s.rxLen + 1 = s.cfg.frameCap then false else s.rxArmed
      frameArrived := if s.rxLen + 1 = s.cfg.frameCap then true else s.frameArrived } := by
  unfold countReceived
  by_cases h : s.rxLen + 1 = s.cfg.frameCap <;> simp [rxFull, h, completeReceive]

theorem receiveBytes_nil (s : State) : receiveBytes [] s = .next s := rfl

theorem receiveBytes_cons (b : Byte) (bs : List Byte) (s : State) :
    receiveBytes (b :: bs) s = andThen (eventRx b s) (receiveBytes bs) := rfl

/-- While no receive is armed, any bytes of the line are dropped. -/
theorem receiveBytes_unarmed {s : State} (h : s.rxArmed = false) : ∀ bs : List Byte, receiveBytes bs s = .next s
  | [] => rfl
  | b :: bs => by
    have hb : eventRx b s = .next s := by
      simp [eventRx, (receiveByte_ok (b := b) (s := s) (t := s)).2 (.inl ⟨h, rfl⟩)]
    rw [receiveBytes_cons, hb, andThen_of_next, receiveBytes_unarmed h bs]

/-- A property that every received byte keeps is kept by a byte sequence. -/
theorem receiveBytes_keeps {P : State → Prop}
    (hP : ∀ {b s t}, P s → receiveByte b s = .ok t → P t) :
    ∀ {bs : List Byte} {s t : State}, P s → receiveBytes bs s = .next t → P t
  | [], s, t, hs, h => by simp [receiveBytes] at h; exact h ▸ hs
  | b :: bs, s, t, hs, h => by
    rw [receiveBytes_cons, andThen_next] at h
    obtain ⟨u, hu, ht⟩ := h
    rw [eventRx, withValue_next] at hu
    obtain ⟨v, hv, e⟩ := hu
    cases e
    exact receiveBytes_keeps hP (hP hs hv) ht

/-! ## Ring -/

/-- What a ring write does: nothing but its return on a full ring; else the byte goes to the slot `HEAD` names and
`HEAD` moves on. -/
theorem ringWrite_next {port : Port} {v : Byte} {s t : State} :
    ringWrite port v s = .next t ↔
      (ringFull s ∧ t = returnAt port s .rbFull) ∨
      (¬ ringFull s ∧ s.head < s.cfg.ringCap ∧
        t = returnAt port { s with ring := s.ring.write s.head v, head := nextSlot s.cfg s.head } .ok) := by
  unfold ringWrite
  by_cases hf : ringFull s
  · simp [hf, eq_comm]
  · simp only [hf, if_false, withValue_next, false_and, false_or, not_false_eq_true, true_and]
    constructor
    · rintro ⟨u, hu, e⟩
      obtain ⟨hlt, rfl⟩ := writeStore_ok.1 hu
      cases e
      exact ⟨hlt, rfl⟩
    · rintro ⟨hlt, rfl⟩
      exact ⟨_, writeStore_ok.2 ⟨hlt, rfl⟩, rfl⟩

/-! ## A step -/

/-- What a step is: nothing where no agent's step is presented, else the first entry of the schedule on the state with
that entry taken. -/
theorem step_cases (s : State) :
    (s.pending = [] ∧ step s = .next s) ∨
    ∃ x rest, s.pending = x :: rest ∧ step s = runStimulus x (s.withPending rest) := by
  rcases fetch_cases s with ⟨h, hf⟩ | ⟨x, rest, h, hf⟩
  · exact .inl ⟨h, by simp [step, hf]⟩
  · exact .inr ⟨x, rest, h, by simp [step, hf]⟩

end Sys2Proof.Machine
end

