-- ==== Sys2Proof/Laws/PerInstr.lean ====
section
/-! SUPPORT. A statement about every instruction, made per constructor: what the encoder presents carries the fixed bits
of the instruction's row of spec/opcode_table.json. -/

namespace Sys2Proof.Laws

/-- The fixed bits of a row: a 4-bit operation code (mask 0xF), or the leading bytes of a sequence on the line, those
the mask leaves free being none. -/
inductive FixedBits where
  | port (op : BitVec 4)
  | line (start : List (Option Byte))
deriving DecidableEq, Repr

/-- A byte sequence begins with the bytes a pattern fixes. -/
def startsWith : List (Option Byte) → List Byte → Prop
  | [], _ => True
  | none :: ps, _ :: bs => startsWith ps bs
  | some p :: ps, b :: bs => b = p ∧ startsWith ps bs
  | _ :: _, [] => False

/-- A request carries the fixed bits of a row. -/
def carries : FixedBits → Request → Prop
  | .port op, .command r => r.op = op
  | .port op, .producer op' _ => op' = op
  | .line start, .line bytes => startsWith start bytes
  | _, _ => False

/-- The match and mask of each row of spec/opcode_table.json. -/
def tableBits : Instr → FixedBits
  | .encRss _ => .port 0x0
  | .encWss _ _ => .port 0x1
  | .encRsb _ => .port 0x2
  | .encWsb _ _ => .port 0x3
  | .compact => .port 0x4
  | .send => .port 0x5
  | .dispatch _ => .port 0x6
  | .rxArm => .port 0x7
  | .rxWait => .port 0x8
  | .decodeOp => .port 0x9
  | .rbWrite _ _ => .port 0xA
  | .rbRead => .port 0xB
  | .rbFlush => .port 0xC
  | .reqRss _ => .line [some 0x05, none, none, some 0x52, some 0x53, some 0x53]
  | .reqWss _ _ => .line [some 0x05, none, none, some 0x57, some 0x53, some 0x53]
  | .reqRsb _ => .line [some 0x05, none, none, some 0x52, some 0x53, some 0x42]
  | .reqWsb _ _ => .line [some 0x05, none, none, some 0x57, some 0x53, some 0x42]
  | .respAck _ => .line [some 0x06]
  | .respNak _ => .line [some 0x15]
  | .ctlEnq => .line [some 0x05]
  | .ctlAck => .line [some 0x06]
  | .ctlNak => .line [some 0x15]
  | .ctlEot => .line [some 0x04]
  | .ctlEtx => .line [some 0x03]

/-- The encoding of an instruction carries its row's fixed bits. -/
def EncodingCarriesTableBits.Statement (i : Instr) : Prop := carries (tableBits i) (encode i)

namespace EncodingCarriesTableBits

theorem encRss (d : Descriptor) : Statement (.encRss d) := rfl
theorem encWss (d : Descriptor) (data : List Byte) : Statement (.encWss d data) := rfl
theorem encRsb (d : Descriptor) : Statement (.encRsb d) := rfl
theorem encWsb (d : Descriptor) (data : List Byte) : Statement (.encWsb d data) := rfl
theorem compact : Statement .compact := rfl
theorem send : Statement .send := rfl
theorem dispatch (c : Command) : Statement (.dispatch c) := rfl
theorem rxArm : Statement .rxArm := rfl
theorem rxWait : Statement .rxWait := rfl
theorem decodeOp : Statement .decodeOp := rfl
theorem rbWrite (port : Port) (v : Byte) : Statement (.rbWrite port v) := by cases port <;> rfl
theorem rbRead : Statement .rbRead := rfl
theorem rbFlush : Statement .rbFlush := rfl
theorem reqRss (d : Descriptor) : Statement (.reqRss d) := ⟨rfl, rfl, rfl, rfl, trivial⟩
theorem reqWss (d : Descriptor) (data : List Byte) : Statement (.reqWss d data) := ⟨rfl, rfl, rfl, rfl, trivial⟩
theorem reqRsb (d : Descriptor) : Statement (.reqRsb d) := ⟨rfl, rfl, rfl, rfl, trivial⟩
theorem reqWsb (d : Descriptor) (data : List Byte) : Statement (.reqWsb d data) := ⟨rfl, rfl, rfl, rfl, trivial⟩
theorem respAck (f : AckFrame) : Statement (.respAck f) := ⟨rfl, trivial⟩
theorem respNak (f : NakFrame) : Statement (.respNak f) := ⟨rfl, trivial⟩
theorem ctlEnq : Statement .ctlEnq := ⟨rfl, trivial⟩
theorem ctlAck : Statement .ctlAck := ⟨rfl, trivial⟩
theorem ctlNak : Statement .ctlNak := ⟨rfl, trivial⟩
theorem ctlEot : Statement .ctlEot := ⟨rfl, trivial⟩
theorem ctlEtx : Statement .ctlEtx := ⟨rfl, trivial⟩

end EncodingCarriesTableBits

end Sys2Proof.Laws
end

