-- ==== Sys2Proof/Laws/Step.lean ====
section
/-! SUPPORT. A step is made of a few kinds of move. A property that every kind of move keeps is kept by every
instruction, every event and every step, so that an invariant of the machine is proved move by move. -/

namespace Sys2Proof.Machine

/-- A property of states that each kind of move of the codec and its surroundings keeps. -/
structure KeptByMoves (P : State → Prop) : Prop where
  pending : ∀ s p, P s → P (s.withPending p)
  returnHost : ∀ s st v, P s → P (returnHost s st v)
  returnProducer : ∀ s st, P s → P (returnProducer s st)
  encode : ∀ s c, P s → s.hostop = .idle → c.fits s.cfg → (requestView s.cfg c).length ≤ s.cfg.frameCap →
    P { s with frame := Memory.ofBytes 0 (frameImage s.cfg c) }
  compact : ∀ s t st, P s → s.hostop = .idle → compactFrame s = .ok (t, st) → P t
  startSend : ∀ s, P s → s.hostop = .idle → P (startSend s)
  arm : ∀ s, P s → s.hostop = .idle → P (armReceive s)
  startWait : ∀ s, P s → s.hostop = .idle → P (startWait s)
  ringWrite : ∀ s v, P s → ¬ ringFull s → s.head < s.cfg.ringCap →
    P { s with ring := s.ring.write s.head v, head := nextSlot s.cfg s.head }
  ringRead : ∀ s, P s → ¬ ringEmpty s → P { s with tail := nextSlot s.cfg s.tail }
  ringFlush : ∀ s, P s → P { s with head := 0, tail := 0 }
  receive : ∀ b s t, P s → receiveByte b s = .ok t → P t
  lineIdle : ∀ s, P s → s.rxArmed = true → 0 < s.rxLen → P (completeReceive s)
  emit : ∀ s b, P s → txAcceptEnabled s → P (emitByte b s)
  tick : ∀ s, P s → P { s with now := (s.now + 1) % s.cfg.clockSpan }
  completeSend : ∀ s, P s → sendDone s → P (completeSend s)
  timeoutSend : ∀ s, P s → sendTimedOut s → P (timeoutSend s)
  completeWait : ∀ s, P s → waitDone s → P (completeWait s)
  timeoutWait : ∀ s, P s → waitTimedOut s → P (timeoutWait s)
  reset : ∀ s, P s → P (State.resetWith s.cfg s.now s.pending)

namespace KeptByMoves

variable {P : State → Prop} (K : KeptByMoves P)
include K

theorem returnAt (port : Port) (s : State) (st : Status) (h : P s) : P (returnAt port s st) := by
  cases port
  · exact K.returnHost s st .none h
  · exact K.returnProducer s st h

theorem encodeFrame {c : Command} {s t : State} (h : P s) (hi : s.hostop = .idle)
    (e : Machine.encodeFrame c s = .next t) : P t ∧ t.hostop = .idle := by
  obtain ⟨hf, hl, rfl⟩ := encodeFrame_next.1 e
  exact ⟨K.encode s c h hi hf hl, hi⟩

theorem receiveBytes {bs : List Byte} {s t : State} (h : P s) (e : Machine.receiveBytes bs s = .next t) : P t :=
  receiveBytes_keeps (fun {b s t} hs hb => K.receive b s t hs hb) h e

theorem encodeOperation {c : Command} {s t : State} (h : P s) (e : Machine.encodeOperation c s = .next t) : P t := by
  obtain ⟨hi, e⟩ := hostStep_next.1 e
  obtain ⟨u, hu, e⟩ := andThen_next.1 e
  obtain rfl := finish_next.1 e
  exact K.returnHost _ _ _ (K.encodeFrame h hi hu).1

theorem dispatch {c : Command} {s t : State} (h : P s) (e : execDispatch c s = .next t) : P t := by
  obtain ⟨hi, e⟩ := hostStep_next.1 e
  obtain ⟨u, hu, e⟩ := andThen_next.1 e
  obtain ⟨hPu, hiu⟩ := K.encodeFrame h hi hu
  obtain ⟨⟨v, st⟩, hv, e⟩ := withValue_next.1 e
  have hPv := K.compact u v st hPu hiu hv
  obtain ⟨out, found, -, (⟨-, -, rfl⟩ | ⟨-, -, rfl⟩)⟩ := compactFrame_ok hv <;>
  · simp only at e
    split at e
    · cases e; exact K.startSend _ hPv hiu
    · obtain rfl := finish_next.1 e; exact K.returnHost _ _ _ hPv

theorem ringWriteAt {port : Port} {v : Byte} {s t : State} (h : P s) (e : Machine.ringWrite port v s = .next t) :
    P t := by
  obtain ⟨-, rfl⟩ | ⟨hf, hlt, rfl⟩ := ringWrite_next.1 e
  · exact K.returnAt port s _ h
  · exact K.returnAt port _ _ (K.ringWrite s v h hf hlt)

/-- Every instruction keeps the property. -/
theorem exec {i : Instr} {s t : State} (h : P s) (e : Machine.exec i s = .next t) : P t := by
  cases i <;> simp only [Machine.exec] at e
  case encRss => exact K.encodeOperation h e
  case encWss => exact K.encodeOperation h e
  case encRsb => exact K.encodeOperation h e
  case encWsb => exact K.encodeOperation h e
  case compact =>
    obtain ⟨hi, e⟩ := hostStep_next.1 e
    obtain ⟨⟨v, st⟩, hv, e⟩ := withValue_next.1 e
    obtain rfl := finish_next.1 e
    exact K.returnHost _ _ _ (K.compact s v st h hi hv)
  case send => obtain ⟨hi, e⟩ := hostStep_next.1 e; cases e; exact K.startSend s h hi
  case dispatch => exact K.dispatch h e
  case rxArm =>
    obtain ⟨hi, e⟩ := hostStep_next.1 e
    obtain rfl := finish_next.1 e
    exact K.returnHost _ _ _ (K.arm s h hi)
  case rxWait => obtain ⟨hi, e⟩ := hostStep_next.1 e; cases e; exact K.startWait s h hi
  case decodeOp =>
    obtain ⟨hi, e⟩ := hostStep_next.1 e
    obtain ⟨bs, -, e⟩ := withValue_next.1 e
    cases e
    unfold decodeReturn
    split <;> exact K.returnHost _ _ _ h
  case rbWrite port v =>
    cases port
    · exact K.ringWriteAt h (hostStep_next.1 e).2
    · exact K.ringWriteAt h e
  case rbRead =>
    obtain ⟨hi, e⟩ := hostStep_next.1 e
    split at e
    · obtain rfl := finish_next.1 e; exact K.returnHost _ _ _ h
    · next hne =>
      obtain ⟨v, -, e⟩ := withValue_next.1 e
      obtain rfl := finish_next.1 e
      exact K.returnHost _ _ _ (K.ringRead s h hne)
  case rbFlush =>
    obtain ⟨hi, e⟩ := hostStep_next.1 e
    obtain rfl := finish_next.1 e
    exact K.returnHost _ _ _ (K.ringFlush s h)
  all_goals exact K.receiveBytes h e

/-- Every event keeps the property. -/
theorem runEvent {ev : Event} {s t : State} (h : P s) (e : Machine.runEvent ev s = .next t) : P t := by
  cases ev <;> simp only [Machine.runEvent] at e
  case txAccept =>
    unfold eventTxAccept at e
    split at e
    · next hen => obtain ⟨b, -, e⟩ := withValue_next.1 e; cases e; exact K.emit s b h hen
    · cases e
  case rx b => obtain ⟨u, hu, e⟩ := withValue_next.1 e; cases e; exact K.receive b s _ h hu
  case idle =>
    unfold eventIdle at e
    split at e
    · next hc => cases e; exact K.lineIdle s h hc.1 hc.2
    · cases e; exact h
  case tick => cases e; exact K.tick s h
  case hostPoll =>
    unfold eventHostPoll at e
    split at e
    · cases e
    · split at e
      · next hd => cases e; exact K.completeSend s h hd
      · split at e
        · next hd => cases e; exact K.timeoutSend s h hd
        · cases e; exact h
    · split at e
      · next hd => cases e; exact K.completeWait s h hd
      · split at e
        · next hd => cases e; exact K.timeoutWait s h hd
        · cases e; exact h
  case reset => cases e; exact K.reset s h

/-- Every step keeps the property. -/
theorem step {s t : State} (h : P s) (e : Machine.step s = .next t) : P t := by
  obtain ⟨-, hs⟩ | ⟨x, rest, -, hs⟩ := step_cases s <;> rw [hs] at e
  · cases e; exact h
  · have h' := K.pending s rest h
    cases x with
    | event ev => exact K.runEvent h' e
    | request r =>
      simp only [runStimulus] at e
      split at e
      · exact K.exec h' e
      · next err _ =>
        cases err <;> simp only [undecoded] at e
        case notAFrame => exact K.receiveBytes h' e
        all_goals cases e

end KeptByMoves

end Sys2Proof.Machine
end

