-- ==== Sys2Proof/Machine/Notation.lean ====
section
/-! DEFINITION. The mnemonics of spec/opcode_table.json and the textual notation of operations and events (R130, R131
of spec/30_encoding.md). No meaning reads any of it. -/

namespace Sys2Proof.Machine

/-- The row of spec/opcode_table.json an instruction belongs to. -/
def mnemonic : Instr → String
  | .encRss _ => "ENC.RSS" | .encWss _ _ => "ENC.WSS" | .encRsb _ => "ENC.RSB" | .encWsb _ _ => "ENC.WSB"
  | .compact => "COMPACT" | .send => "SEND" | .dispatch _ => "DISPATCH"
  | .rxArm => "RX.ARM" | .rxWait => "RX.WAIT" | .decodeOp => "DECODE"
  | .rbWrite _ _ => "RB.WRITE" | .rbRead => "RB.READ" | .rbFlush => "RB.FLUSH"
  | .reqRss _ => "REQ.RSS" | .reqWss _ _ => "REQ.WSS" | .reqRsb _ => "REQ.RSB" | .reqWsb _ _ => "REQ.WSB"
  | .respAck _ => "RESP.ACK" | .respNak _ => "RESP.NAK"
  | .ctlEnq => "ENQ" | .ctlAck => "ACK" | .ctlNak => "NAK" | .ctlEot => "EOT" | .ctlEtx => "ETX"

/-- The characters of a byte sequence. -/
def textOf (bs : List Byte) : String := String.ofList (bs.map fun b => Char.ofNat b.toNat)

/-- A byte in decimal. -/
def textNat (b : Byte) : String := toString b.toNat

/-- The kind names of R121. -/
def textKind : Command → String
  | .rss _ => "RSS" | .wss _ _ => "WSS" | .rsb _ => "RSB" | .wsb _ _ => "WSB"

/-- The descriptor operands of R130. -/
def textDescriptor (d : Descriptor) : String :=
  "st=" ++ textNat d.station ++ ", dev=" ++ textOf [devLetter d.dev] ++ ", sz=" ++ textOf [sizeLetter d.size] ++
    ", addr=\"" ++ textOf d.addr ++ "\", n=" ++ textNat d.count

/-- The payload operand of R130. -/
def textData (data : List Byte) : String := ", data=[" ++ String.intercalate ", " (data.map textNat) ++ "]"

/-- The operands of a request of either direction (R130). -/
def textCommand : Command → String
  | .rss d => textDescriptor d
  | .wss d data => textDescriptor d ++ textData data
  | .rsb d => textDescriptor d
  | .wsb d data => textDescriptor d ++ textData data

/-- One line of the notation (R130). A row that is bytes on the line has no notation of its own but a sequence of
`!RX` (R131) and is shown by its mnemonic. -/
def instrText (i : Instr) : String :=
  match i with
  | .encRss d => mnemonic i ++ " " ++ textCommand (.rss d)
  | .encWss d data => mnemonic i ++ " " ++ textCommand (.wss d data)
  | .encRsb d => mnemonic i ++ " " ++ textCommand (.rsb d)
  | .encWsb d data => mnemonic i ++ " " ++ textCommand (.wsb d data)
  | .dispatch c => mnemonic i ++ " kind=" ++ textKind c ++ ", " ++ textCommand c
  | .rbWrite .host v => mnemonic i ++ " " ++ textNat v
  | .rbWrite .producer v => "P:" ++ mnemonic i ++ " " ++ textNat v
  | _ => mnemonic i

/-- The event lines of R131. The reset and the HOST's poll have none there. -/
def eventText : Event → String
  | .txAccept => "!TXACC"
  | .rx b => "!RX " ++ textNat b
  | .idle => "!IDLE"
  | .tick => "!TICK"
  | .hostPoll => ""
  | .reset => ""

/-- The status names of R126. -/
def statusText : Status → String
  | .ok => "OK" | .terminatorMissing => "TERMINATOR_MISSING" | .transmitTimeout => "TRANSMIT_TIMEOUT"
  | .responseTimeout => "RESPONSE_TIMEOUT" | .malformedResponse => "MALFORMED_RESPONSE"
  | .rbFull => "RB_FULL" | .rbEmpty => "RB_EMPTY"

end Sys2Proof.Machine
end

