-- ==== Sys2Proof/Tests/Slice0.lean ====
section
/-! SUPPORT. The model's own tests. A test named after a vector V<n> or an example S<n> takes its expected values from
spec/95_test_vectors.md, one named after a rule from the example that rule gives; a test_word takes its word from the
encoding tables of spec/30_encoding.md. A witness shows a concrete state and operands that meet the hypotheses of a
statement, clause by clause, at the ends of its ranges. -/

namespace Sys2Proof.Tests

open Sys2Proof.Machine

/-- A part of the next state, if there is one. -/
def after {α : Type} (o : Outcome) (f : State → α) : Option α :=
  match o with
  | .next s => some (f s)
  | .fault _ => none
  | .refused _ => none

/-- The refusal of a refused step. -/
def refusal (o : Outcome) : Option Refusal :=
  match o with
  | .refused r => some r
  | .next _ => none
  | .fault _ => none

/-- The bytes of a store that are not zero, with their indices. -/
def nonZero (m : Memory) : Memory := m.filter fun c => c.2 != 0

/-- The bytes of a store from index 0. -/
def bytesOf (m : Memory) : List Byte := m.map fun c => c.2

/-- Parameters small enough to write a whole state by hand; RING_CAP 4 is that of V40. -/
def small : Config := { frameCap := 20, nameCap := 6, dataCap := 3, ringCap := 4 }

/-- Reset under those parameters, the clock at 7 (the clock reading of V50). -/
def base : State := State.resetWith small 7 []

/-- The descriptor of V1. -/
def dV1 : Descriptor := ⟨1, .p, .byte, [0x30], 1⟩

/-- The success response of V30. -/
def ackV30 : AckFrame := ⟨1, 0x52, 0x53, 0x53, 1, [0x12, 0x34], .eot⟩

/-- The error response of V35. -/
def nakV35 : NakFrame := ⟨1, 0x52, 0x53, 0x53, 1, 0x31, 0x31, 0x33, 0x32⟩

/-- A buffer that has received the given bytes. -/
def received (cfg : Config) (bs : List Byte) : State :=
  { State.resetWith cfg 0 [] with rxbuf := Memory.ofBytes 0 bs, rxLen := bs.length }

/-! ## WellFormed refuses an ill-formed term of each check -/

theorem test_wellformed_address_too_long : ¬ WellFormed small (.encRss { dV1 with addr := [0x31, 0x32, 0x33, 0x34] }) := by
  decide
theorem test_wellformed_payload_too_long : ¬ WellFormed small (.encWss dV1 [1, 2, 3, 4]) := by decide
theorem test_wellformed_rsb : ¬ WellFormed small (.encRsb { dV1 with addr := [0x31, 0x32, 0x33, 0x34] }) := by decide
theorem test_wellformed_wsb : ¬ WellFormed small (.encWsb dV1 [1, 2, 3, 4]) := by decide
theorem test_wellformed_dispatch : ¬ WellFormed small (.dispatch (.wss dV1 [1, 2, 3, 4])) := by decide
theorem test_wellformed_wire_address_eot : ¬ WellFormed small (.reqRss { dV1 with addr := [0x04] }) := by decide
theorem test_wellformed_wire_address_zero : ¬ WellFormed small (.reqRsb { dV1 with addr := [0x00] }) := by decide
theorem test_wellformed_wire_payload_D0 : ¬ WellFormed small (.reqWss dV1 [0xD0]) := by decide
theorem test_wellformed_wire_payload_D4 : ¬ WellFormed small (.reqWsb dV1 [0xD4]) := by decide
theorem test_wellformed_wire_address_length :
    ¬ WellFormed small (.reqRss { dV1 with addr := List.replicate 253 0x31 }) := by decide +kernel
theorem test_wellformed_ack_length : ¬ WellFormed small (.respAck { ackV30 with data := List.replicate 256 0 }) := by
  decide +kernel
theorem test_config_names_too_narrow : ¬ Config.Valid { nameCap := 3 } := by decide
theorem test_config_view_too_long : ¬ Config.Valid { frameCap := 255, dataCap := 229 } := by decide
theorem test_config_default : Config.Valid {} := by decide

/-! ## Transforms -/

theorem test_V2_V3_V5 : [nib 0x01, nib 0xFF, nib 0x0A, nib 0x64, nib 0xAB] =
    [[0x30, 0x31], [0x3F, 0x3F], [0x30, 0x3A], [0x36, 0x34], [0x3A, 0x3B]] := by decide
theorem test_V6_V7 : [unnib 0x3A 0x3B, unnib 0x3F 0x3F, unnib 0x41 0x31, unnib 0x2F 0x30, unnib 0x30 0x40] =
    [some 0xAB, some 0xFF, none, none, none] := by decide
theorem test_V8 : [0x00, 0x0A, 0x7F, 0xCF, 0xD0, 0xD4, 0xE5, 0xFF].map shift0 =
    [0x30, 0x3A, 0xAF, 0xFF, 0x00, 0x04, 0x15, 0x2F] := by decide
theorem test_V9 : [0x30, 0x64, 0x00, 0x04, 0x2F, 0xFF].map unshift0 = [0x00, 0x34, 0xD0, 0xD4, 0xFF, 0xCF] := by decide

/-! ## Decoding, one word per constructor -/

theorem test_word_ENC_RSS : decode (.command { op := 0b0000, station := 0xAB, dev := 0b1010, size := 0b100 }) =
    .ok (.encRss ⟨0xAB, .z, .lword, [], 0⟩) := by decide
theorem test_word_ENC_WSS : decode (.command
    { op := 0b0001, station := 16, dev := 0b0001, size := 0b010, addr := [0x31, 0x30, 0x30], count := 1,
      data := [0x01, 0x02] }) =
    .ok (.encWss ⟨16, .m, .word, [0x31, 0x30, 0x30], 1⟩ [0x01, 0x02]) := by decide
theorem test_word_ENC_RSB : decode (.command { op := 0b0010, dev := 0b1000, size := 0b011, addr := [0x31], count := 5 }) =
    .ok (.encRsb ⟨0, .d, .dword, [0x31], 5⟩) := by decide
theorem test_word_ENC_WSB : decode (.command
    { op := 0b0011, station := 255, dev := 0b1011, size := 0b000, count := 3, data := [0x09] }) = .ok (.encWsb ⟨255, .r, .bit, [], 3⟩ [0x09]) := by decide
theorem test_word_COMPACT : decode (.command { op := 0b0100 }) = .ok .compact := by decide
theorem test_word_SEND : decode (.command { op := 0b0101 }) = .ok .send := by decide
theorem test_word_DISPATCH : decode (.command { op := 0b0110, kind := 0b10, dev := 0b0101, size := 0b001 }) =
    .ok (.dispatch (.rsb ⟨0, .c, .byte, [], 0⟩)) := by decide
theorem test_word_RX_ARM : decode (.command { op := 0b0111 }) = .ok .rxArm := by decide
theorem test_word_RX_WAIT : decode (.command { op := 0b1000 }) = .ok .rxWait := by decide
theorem test_word_DECODE : decode (.command { op := 0b1001 }) = .ok .decodeOp := by decide
theorem test_word_RB_WRITE : decode (.command { op := 0b1010, v := 0x41 }) = .ok (.rbWrite .host 0x41) ∧
    decode (.producer 0b1010 0x41) = .ok (.rbWrite .producer 0x41) := by decide
theorem test_word_RB_READ : decode (.command { op := 0b1011 }) = .ok .rbRead := by decide
theorem test_word_RB_FLUSH : decode (.command { op := 0b1100 }) = .ok .rbFlush := by decide
theorem test_word_REQ_RSS_V1 : decode (.line [0x05, 0x30, 0x31, 0x52, 0x53, 0x53, 0x30, 0x31, 0x30, 0x34, 0x25, 0x50,
    0x42, 0x30, 0x04]) = .ok (.reqRss dV1) := by decide
theorem test_word_REQ_WSS_V10 : decode (.line [0x05, 0x31, 0x30, 0x57, 0x53, 0x53, 0x30, 0x31, 0x30, 0x36, 0x25, 0x4D,
    0x57, 0x31, 0x30, 0x30, 0x31, 0x32, 0x04]) = .ok (.reqWss ⟨16, .m, .word, [0x31, 0x30, 0x30], 1⟩ [0x01, 0x02]) := by
  decide
theorem test_word_REQ_RSB_V11 : decode (.line [0x05, 0x30, 0x30, 0x52, 0x53, 0x42, 0x30, 0x37, 0x25, 0x44, 0x57, 0x31,
    0x32, 0x33, 0x34, 0x30, 0x35, 0x04]) = .ok (.reqRsb ⟨0, .d, .word, [0x31, 0x32, 0x33, 0x34], 5⟩) := by decide
theorem test_word_REQ_WSB_V12 : decode (.line [0x05, 0x3F, 0x3F, 0x57, 0x53, 0x42, 0x30, 0x34, 0x25, 0x52, 0x42, 0x37,
    0x30, 0x33, 0x39, 0x3A, 0x2F, 0x04]) = .ok (.reqWsb ⟨255, .r, .byte, [0x37], 3⟩ [0x09, 0x0A, 0xFF]) := by decide
theorem test_word_RESP_ACK_V31 : decode (.line [0x06, 0x30, 0x31, 0x52, 0x53, 0x53, 0x30, 0x31, 0x30, 0x32, 0x42, 0x64,
    0x03]) = .ok (.respAck { ackV30 with term := .etx }) := by decide
theorem test_word_RESP_NAK_V35 : decode (.line [0x15, 0x30, 0x31, 0x52, 0x53, 0x53, 0x30, 0x31, 0x31, 0x31, 0x33,
    0x32]) = .ok (.respNak nakV35) := by decide
theorem test_word_controls : [[0x05], [0x06], [0x15], [0x04], [0x03]].map (fun w => decode (.line w)) =
    [.ok .ctlEnq, .ok .ctlAck, .ok .ctlNak, .ok .ctlEot, .ok .ctlEtx] := by decide
theorem test_word_foreign_bytes : decode (.line [0x41]) = .error .notAFrame ∧
    decode (.line [0x05, 0x30, 0x31, 0x52, 0x53, 0x53, 0x30, 0x31, 0x30, 0x34, 0x25, 0x50, 0x42, 0x30]) =
      .error .notAFrame := by decide
theorem test_table_words : (List.range 16).map (decodeTableWord 8) =
    [some (.encRss ⟨0, .p, .bit, [], 0⟩), some (.encWss ⟨0, .p, .bit, [], 0⟩ []), some (.encRsb ⟨0, .p, .bit, [], 0⟩),
     some (.encWsb ⟨0, .p, .bit, [], 0⟩ []), some .compact, some .send, some (.dispatch (.rss ⟨0, .p, .bit, [], 0⟩)),
     some .rxArm, some .rxWait, some .decodeOp, some (.rbWrite .host 0), some .rbRead, some .rbFlush,
     none, none, none] := by decide
theorem test_table_word_NAK : decodeTableWord 8 0x15 = some .ctlNak := by decide

/-! ## The operations -/

theorem test_V1_FRAME : after (exec (.encRss dV1) State.reset) (fun s => nonZero s.frame) =
    some [(0, 0x05), (1, 0x30), (2, 0x31), (3, 0x52), (4, 0x53), (5, 0x53), (6, 0x30), (7, 0x31), (8, 0x30), (9, 0x34),
          (10, 0x25), (11, 0x50), (12, 0x42), (13, 0x30), (26, 0x04)] := by decide +kernel
theorem test_V10_FRAME : after (exec (.encWss ⟨16, .m, .word, [0x31, 0x30, 0x30], 1⟩ [0x01, 0x02]) State.reset)
    (fun s => (nonZero s.frame).drop 9) =
    some [(9, 0x36), (10, 0x25), (11, 0x4D), (12, 0x57), (13, 0x31), (14, 0x30), (15, 0x30), (26, 0x31), (27, 0x32),
          (255, 0x04)] := by decide +kernel
theorem test_V11_FRAME : after (exec (.encRsb ⟨0, .d, .word, [0x31, 0x32, 0x33, 0x34], 5⟩) State.reset)
    (fun s => (nonZero s.frame).drop 5) =
    some [(5, 0x42), (6, 0x30), (7, 0x37), (8, 0x25), (9, 0x44), (10, 0x57), (11, 0x31), (12, 0x32), (13, 0x33),
          (14, 0x34), (24, 0x30), (25, 0x35), (26, 0x04)] := by decide +kernel
theorem test_V12_FRAME : after (exec (.encWsb ⟨255, .r, .byte, [0x37], 3⟩ [0x09, 0x0A, 0xFF]) State.reset)
    (fun s => (nonZero s.frame).drop 8) =
    some [(8, 0x25), (9, 0x52), (10, 0x42), (11, 0x37), (24, 0x30), (25, 0x33), (26, 0x39), (27, 0x3A), (28, 0x2F),
          (255, 0x04)] := by decide +kernel

/-- `FRAME` set directly, as section 2.3 of the vectors does. -/
def frameSet (bs : List Byte) : State :=
  { State.reset with frame := Memory.ofBytes 0 (bs ++ List.replicate (256 - bs.length) 0x00) }

theorem test_V21 : after (exec .compact (frameSet [0x41, 0x00, 0x00, 0x42, 0x04, 0x00, 0x43]))
    (fun s => (bytesOf s.txbuf, s.txLen, s.hostReturns)) =
    some ([0x41, 0x42, 0x04, 0x00], 3, [{ status := .ok }]) := by decide +kernel
theorem test_V22 : after (exec .compact (frameSet [])) (fun s => (s.txbuf, s.txLen, s.hostReturns)) =
    some ([], 0, [{ status := .terminatorMissing }]) := by decide +kernel

theorem test_V50 : after (exec .send base) (fun s => (s.txIdx, s.txT0, s.hostop)) = some (0, 7, .sending) := by decide
theorem test_V56 : after (exec (.dispatch (.rsb ⟨0, .d, .word, [0x31, 0x32, 0x33, 0x34], 5⟩)) State.reset)
    (fun s => (bytesOf s.txbuf, s.txLen, s.txIdx, s.hostop, s.hostReturns)) =
    some ([0x05, 0x30, 0x30, 0x52, 0x53, 0x42, 0x30, 0x37, 0x25, 0x44, 0x57, 0x31, 0x32, 0x33, 0x34, 0x30, 0x35, 0x04,
           0x00], 18, 0, .sending, []) := by decide +kernel
theorem test_V18_early_eot :
    after (exec (.dispatch (.wss ⟨1, .d, .word, [0x35], 1⟩ [0x01, 0xD4, 0x02])) State.reset) (fun s => s.txLen) =
    some 16 := by decide +kernel

/-- A send of two bytes in progress since NOW = 1000, one byte accepted. -/
def sending : State :=
  { base with txbuf := Memory.ofBytes 0 [0x05, 0x04, 0x00], txLen := 2, txIdx := 1, txT0 := 1000, now := 1099,
              hostop := .sending }

theorem test_R178_emits : after (runEvent .txAccept sending) (fun s => (s.txTrace, s.txIdx)) = some ([0x04], 2) := by decide
theorem test_V52_deadline_not_reached : after (runEvent .hostPoll sending) (fun s => (s.hostop, s.hostReturns)) =
    some (.sending, []) := by decide
theorem test_V52_deadline_reached : after (runEvent .hostPoll { sending with now := 1100 })
    (fun s => (s.hostop, s.hostReturns)) = some (.idle, [{ status := .transmitTimeout }]) := by decide
theorem test_V53_acceptance_beats_deadline : after (runEvent .hostPoll { sending with txIdx := 2, now := 1150, sync := .armed })
    (fun s => (s.sync, s.hostReturns)) = some (.sent, [{ status := .ok }]) := by decide

theorem test_V60 : after (exec .rxArm { base with sync := .timedOut, rxLen := 7, rxArmed := true })
    (fun s => (s.sync, s.rxLen, s.rxArmed, s.frameArrived)) = some (.armed, 0, true, false) := by decide
theorem test_V61_dropped : after (exec .ctlAck base) (fun s => (s.rxbuf, s.rxLen)) = some ([], 0) := by decide
theorem test_V63_last_byte : after (runEvent (.rx 0x41) { base with rxArmed := true, rxLen := 19 })
    (fun s => (s.rxLen, s.frameArrived, s.rxArmed)) = some (20, true, false) := by decide
theorem test_V62_idle_before_a_byte : after (runEvent .idle { base with rxArmed := true })
    (fun s => (s.frameArrived, s.rxArmed)) = some (false, true) := by decide
theorem test_V64 : after (exec .rxWait { base with frameArrived := true, now := 40 })
    (fun s => (s.rxT0, s.sync, s.hostop)) = some (40, .waiting, .waiting) := by decide

/-- A wait in progress since NOW = 0xFFFFFFF0, across the wrap of the clock (V66). -/
def waiting : State :=
  { base with rxT0 := 0xFFFFFFF0, now := 0x53, sync := .waiting, hostop := .waiting, rxArmed := true }

theorem test_V66_not_yet : after (runEvent .hostPoll waiting) (fun s => s.hostop) = some .waiting := by decide
theorem test_V66_timeout : after (runEvent .hostPoll { waiting with now := 0x54 })
    (fun s => (s.sync, s.rxArmed, s.hostReturns)) = some (.timedOut, true, [{ status := .responseTimeout }]) := by decide
theorem test_V67_flag_first : after (runEvent .hostPoll { waiting with now := 0x54, rxArmed := false, frameArrived := true })
    (fun s => (s.sync, s.frameArrived)) = some (.completed, true) := by decide

theorem test_V30 : after (exec .decodeOp (received {} [0x06, 0x30, 0x31, 0x52, 0x53, 0x53, 0x30, 0x31, 0x30, 0x32, 0x42,
    0x64, 0x04])) (fun s => s.hostReturns) =
    some [⟨.ok, .response (.ack 1 0x52 0x53 0x53 1 2 [0x12, 0x34])⟩] := by decide
theorem test_V35 : after (exec .decodeOp (received {} [0x15, 0x30, 0x31, 0x52, 0x53, 0x53, 0x30, 0x31, 0x31, 0x31, 0x33,
    0x32])) (fun s => s.hostReturns) =
    some [⟨.ok, .response (.nak 1 0x52 0x53 0x53 1 0x31 0x31 0x33 0x32)⟩] := by decide
theorem test_V32_V37_V38_V81_V83 :
    [[0x06, 0x30, 0x31, 0x52, 0x53, 0x53, 0x30, 0x31, 0x30, 0x32, 0x42, 0x64, 0x03],
     [0x15, 0x30, 0x31, 0x52, 0x53, 0x53, 0x30, 0x31, 0x31, 0x31, 0x33], [],
     [0x06, 0x30, 0x31, 0x52, 0x53, 0x53, 0x30, 0x31, 0x30, 0x32, 0x42, 0x64],
     [0x06, 0x41, 0x31, 0x52, 0x53, 0x53, 0x30, 0x31, 0x30, 0x32, 0x42, 0x64, 0x04]].map (parseResponse 0x04) =
    [none, none, none, none, none] := by decide
theorem test_V85_V86 :
    [[0x06, 0x3F, 0x3F, 0x52, 0x53, 0x42, 0x30, 0x31, 0x30, 0x33, 0x04, 0x34, 0x2F, 0x04],
     [0x06, 0x30, 0x30, 0x52, 0x53, 0x53, 0x30, 0x31, 0x30, 0x32, 0x00, 0x2F, 0x04]].map (parseResponse 0x04) =
    [some (.ack 255 0x52 0x53 0x42 1 3 [0xD4, 0x04, 0xFF]), some (.ack 0 0x52 0x53 0x53 1 2 [0xD0, 0xFF])] := by decide

/-- The ring of V40 with its three bytes: full for four slots. -/
def ringOfThree : State := { base with ring := [(0, 0x61), (1, 0x62), (2, 0x63)], head := 3 }

theorem test_V40_full : after (exec (.rbWrite .producer 0x64) ringOfThree)
    (fun s => (s.head, s.ring.length, s.producerReturns)) = some (3, 3, [.rbFull]) := by decide
theorem test_V41_wrap : after (exec (.rbWrite .host 0x64) { ringOfThree with tail := 1 })
    (fun s => (s.head, s.ring.read 3, s.hostReturns)) = some (0, some 0x64, [{ status := .ok }]) := by decide
theorem test_V41_read : after (exec .rbRead ringOfThree) (fun s => (s.tail, s.hostReturns)) =
    some (1, [⟨.ok, .byte 0x61⟩]) := by decide
theorem test_V44_empty : after (exec .rbRead base) (fun s => (s.tail, s.hostReturns)) =
    some (0, [{ status := .rbEmpty }]) := by decide
theorem test_V45 : after (exec .rbFlush { ringOfThree with tail := 2 }) (fun s => (s.head, s.tail, s.ring.length)) =
    some (0, 0, 3) := by decide

theorem test_RESP_ACK_arrives : after (exec (.respAck ackV30) { base with rxArmed := true })
    (fun s => (bytesOf s.rxbuf, s.rxLen)) =
    some ([0x06, 0x30, 0x31, 0x52, 0x53, 0x53, 0x30, 0x31, 0x30, 0x32, 0x42, 0x64, 0x04], 13) := by decide
theorem test_RESP_NAK_arrives : after (exec (.respNak nakV35) { base with rxArmed := true })
    (fun s => (bytesOf s.rxbuf).drop 8) = some [0x31, 0x31, 0x33, 0x32] := by decide
theorem test_V39_echo : after (exec (.reqRss dV1) { base with rxArmed := true }) (fun s => bytesOf s.rxbuf) =
    some [0x05, 0x30, 0x31, 0x52, 0x53, 0x53, 0x30, 0x31, 0x30, 0x34, 0x25, 0x50, 0x42, 0x30, 0x04] := by decide
theorem test_REQ_WSB_is_cut_at_the_buffer_end :
    after (exec (.reqWsb ⟨255, .r, .byte, [0x37], 3⟩ [0x09, 0x0A, 0xFF]) { base with rxArmed := true, rxLen := 5 })
    (fun s => (s.rxLen, s.frameArrived, s.rxbuf.read 19)) = some (20, true, some 0x39) := by decide
theorem test_control_codes_arrive :
    [Instr.ctlEnq, .ctlAck, .ctlNak, .ctlEot, .ctlEtx].map (fun i =>
      after (exec i { base with rxArmed := true }) (fun s => s.rxbuf)) =
    [some [(0, 0x05)], some [(0, 0x06)], some [(0, 0x15)], some [(0, 0x04)], some [(0, 0x03)]] := by decide

theorem test_step_runs_the_table_word : after (step (State.reset.withFetchWord 8 7)) (fun s => s.sync) = some .armed := by
  decide
theorem test_tick_wraps : after (runEvent .tick { base with now := 0xFFFFFFFF }) (fun s => s.now) = some 0 := by decide
theorem test_notation : instrText (.encRss dV1) = "ENC.RSS st=1, dev=P, sz=B, addr=\"0\", n=1" := by decide +kernel

/-! ## Witnesses: what meets the hypotheses of each statement, clause by clause, at the ends of its ranges -/

/-- A state with one entry in its schedule. -/
def withHead (s : State) (x : Stimulus) : State := s.withPending [x]

/-- A record at the command port, in a schedule. -/
def command (r : CommandRecord) : Stimulus := .request (.command r)

/-- The longest address text and payload of the small parameters. -/
def dLong : Descriptor := { dV1 with addr := [0x31, 0x32, 0x33] }

/-- A wait in progress with its clock values in range. -/
def waitingSince7 : State := { base with rxT0 := 7, sync := .waiting, hostop := .waiting, rxArmed := true }

/-- A received byte that completed its receive. -/
def arrived : State := { received small [0x06] with frameArrived := true }

/-- A twenty-byte `FRAME` whose only EOT is its last byte. -/
def eotLast : List Byte := List.replicate 19 0x41 ++ [0x04]

/-- The small `FRAME` with given bytes. -/
def withFrame (bs : List Byte) : State := { base with frame := Memory.ofBytes 0 bs }

theorem witness_Unnib : nib 0xAB = [0x3A, 0x3B] ∧
    (0x30 ≤ (0x30#8).toNat ∧ (0x30#8).toNat ≤ 0x3F ∧ 0x30 ≤ (0x3F#8).toNat ∧ (0x3F#8).toNat ≤ 0x3F) ∧
    (0x2F#8).toNat < 0x30 ∧ 0x3F < (0x40#8).toNat := by decide
theorem witness_DeviceAndSizeCodes : 12 ≤ (12 : BitVec 4).toNat ∧ 5 ≤ (5 : BitVec 3).toNat := by decide
theorem witness_ReservedCodes :
    (withHead base (command { op := 13 })).pending = [command { op := 13 }] ∧ 13 ≤ (13 : BitVec 4).toNat ∧
    (6 : BitVec 4).toNat ∈ [0, 1, 2, 3, 6] ∧ 12 ≤ (12 : BitVec 4).toNat ∧ (11 : BitVec 4).toNat < 12 ∧
    5 ≤ (5 : BitVec 3).toNat ∧ (9 : BitVec 4).toNat ≠ 10 := by decide
theorem witness_WellFormed : ∀ i ∈ [Instr.encRss dLong, .encWss dLong [1, 2, 3], .encRsb dLong, .encWsb dLong [1, 2, 3],
    .compact, .send, .dispatch (.wsb dLong [0xD0, 0xD4, 0xFF]), .rxArm, .rxWait, .decodeOp, .rbWrite .host 0xFF,
    .rbWrite .producer 0, .rbRead, .rbFlush, .reqRss dLong, .reqWss dLong [0xD3], .reqRsb dLong, .reqWsb dLong [0xCF],
    .respAck ackV30, .respNak nakV35, .ctlEnq, .ctlAck, .ctlNak, .ctlEot, .ctlEtx], WellFormed small i := by
  intro i hi
  simp only [List.mem_cons, List.not_mem_nil, or_false] at hi
  rcases hi with rfl | rfl | rfl | rfl | rfl | rfl | rfl | rfl | rfl | rfl | rfl | rfl | rfl | rfl | rfl | rfl | rfl | rfl |
    rfl | rfl | rfl | rfl | rfl | rfl | rfl <;> decide
theorem witness_StepRunsTheDecodedInstruction :
    ((withHead base (command { op := 7 })).pending = [command { op := 7 }] ∧
      decode (.command { op := 7 }) = .ok .rxArm) ∧ decodeTableWord 8 0x15 = some .ctlNak := by decide
theorem witness_StepRunsEventsAndForeignBytes :
    (withHead base (.event .tick)).pending = [.event .tick] ∧
    ((withHead base (.request (.line [0x41]))).pending = [.request (.line [0x41])] ∧
      decode (.line [0x41]) = .error .notAFrame) ∧ base.pending = [] := by decide
theorem witness_Enc : base.cfg.Valid ∧ base.hostop = .idle ∧ dLong.addr.length + 3 = base.cfg.nameCap ∧
    ([1, 2, 3] : List Byte).length = base.cfg.dataCap := by decide
theorem witness_DescriptorsOutOfBounds : base.hostop = .idle ∧
    base.cfg.nameCap < (Command.rss { dLong with addr := [0x31, 0x32, 0x33, 0x34] }).desc.addr.length + 3 ∧
    (Command.wsb dLong [1, 2, 3, 4]).desc.addr.length + 3 ≤ base.cfg.nameCap ∧
    base.cfg.dataCap < (Command.wsb dLong [1, 2, 3, 4]).payload.length := by decide
theorem witness_HostOperationsAreBlocked : sending.hostop ≠ .idle ∧ waiting.hostop ≠ .idle ∧
    isHostOperation (.rbWrite .host 0) = true ∧ isHostOperation (.rbWrite .producer 0) = false := by decide
theorem witness_EncodedFrameDependsOnOperandsAlone : base.cfg = ringOfThree.cfg ∧
    (∃ t, exec (encodeInstr (.rss dLong)) base = .next t) ∧
    (∃ t, exec (encodeInstr (.rss dLong)) ringOfThree = .next t) := ⟨rfl, ⟨_, rfl⟩, ⟨_, rfl⟩⟩
theorem witness_CompactCopies :
    (eotLast.length = small.frameCap ∧ (withFrame eotLast).frame.holds 0 eotLast ∧ Config.EOT ∈ eotLast) ∧
    ((List.replicate 20 0x41).length = small.frameCap ∧
      (withFrame (List.replicate 20 0x41)).frame.holds 0 (List.replicate 20 0x41) ∧
      Config.EOT ∉ List.replicate 20 0x41#8) := by decide
theorem witness_CompactFaults :
    (([] : List Byte).length < small.frameCap ∧ base.frame.holds 0 [] ∧ base.frame.read 0 = none) ∧
    ((List.replicate 19 0x41#8).length < small.frameCap ∧
      (withFrame (List.replicate 19 0x41)).frame.holds 0 (List.replicate 19 0x41) ∧
      Config.EOT ∉ List.replicate 19 0x41#8 ∧ (withFrame (List.replicate 19 0x41)).frame.read 19 = none) := by decide
theorem witness_EncodeThenCompact : base.cfg.Valid ∧ base.hostop = .idle ∧
    (Command.wss dLong [0xCF, 0xD3, 0xFF]).fits base.cfg ∧ (Command.wss dLong [0xCF, 0xD3, 0xFF]).legitimate := by decide
theorem witness_TerminatorIsNeverMissing :
    (∃ t u, exec (encodeInstr (.rss dLong)) base = .next t ∧ exec .compact t = .next u) ∧
    ∃ t, exec (.dispatch (.wsb dLong [0xD0, 0xD4])) base = .next t := ⟨⟨_, _, rfl, rfl⟩, ⟨_, rfl⟩⟩
theorem witness_operation_codes : ({ op := 4 } : CommandRecord).op = 4 ∧ base.hostop = .idle := by decide
theorem witness_Dispatch : base.cfg.Valid ∧ base.hostop = .idle ∧ (Command.wsb dLong [0xD0, 0xD4, 1]).fits base.cfg := by
  decide
theorem witness_TxAccept : sending.hostop = .sending ∧ sending.txIdx + 1 = sending.txLen ∧
    sending.txLen ≤ sending.cfg.frameCap ∧ sending.txbuf.read sending.txIdx = some 0x04 := by decide
theorem witness_AcceptedTransmission : sending.hostop = .sending ∧ { sending with txIdx := 0 }.txIdx = 0 ∧
    sending.txLen = ([0x05, 0x04] : List Byte).length ∧ ([0x05, 0x04] : List Byte).length ≤ sending.cfg.frameCap ∧
    { sending with txIdx := 0 }.txbuf.holds 0 [0x05, 0x04] := by decide
theorem witness_SendCompletesOrTimesOut : sending.hostop = .sending ∧
    { sending with txIdx := 2 }.txIdx = { sending with txIdx := 2 }.txLen ∧
    (sending.txIdx < sending.txLen ∧ (sending.cfg.txTimeoutMs : Int) = elapsedInt sending.cfg 1100 sending.txT0) := by decide
theorem witness_StepsThatAreNotEnabled : (base.hostop ≠ .sending ∧ base.hostop = .idle) ∧
    { sending with txIdx := 2 }.txLen ≤ { sending with txIdx := 2 }.txIdx ∧
    (sending.hostop = .sending ∧ sending.txIdx < sending.txLen ∧
      elapsedInt sending.cfg sending.now sending.txT0 + 1 = sending.cfg.txTimeoutMs) ∧
    (waiting.hostop = .waiting ∧ waiting.frameArrived = false ∧
      elapsedInt waiting.cfg waiting.now waiting.rxT0 + 1 = waiting.cfg.rxTimeoutMs) := by decide
theorem witness_ReceivedByteIsStored : base.rxArmed = false ∧
    ({ base with rxArmed := true, rxLen := 18 }.rxArmed = true ∧ 18 + 1 < base.cfg.frameCap) ∧
    19 + 1 = base.cfg.frameCap := by decide
theorem witness_IdleCompletes : { base with rxArmed := true, rxLen := 1 }.rxArmed = true ∧ 0 < 1 ∧
    base.rxArmed = false ∧ { base with rxArmed := true }.rxLen = 0 := by decide
theorem witness_WireRows : encode (.respNak nakV35) = .line (wireNak nakV35) ∧ base.rxArmed = false ∧
    { base with rxArmed := true, rxLen := 7 }.rxArmed = true ∧ 7 + (wireNak nakV35).length < base.cfg.frameCap ∧
    8 < base.cfg.frameCap ∧ base.cfg.frameCap = 8 + (wireNak nakV35).length ∧
    base.cfg.frameCap ≤ 19 + (wireNak nakV35).length := by decide
theorem witness_WaitCompletes : waiting.hostop = .waiting ∧ { waiting with frameArrived := true }.frameArrived = true ∧
    waiting.frameArrived = false ∧ (waiting.cfg.rxTimeoutMs : Int) = elapsedInt waiting.cfg 0x54 waiting.rxT0 ∧
    (Inv { arrived with sync := .waiting, hostop := .waiting } ∧ arrived.frameArrived = true) := by decide
theorem witness_StaleCompletion : arrived.hostop = .idle ∧ arrived.frameArrived = true := by decide
theorem witness_Inv : Inv base ∧ Inv sending ∧ Inv waitingSince7 ∧ Inv arrived ∧ Inv ringOfThree ∧
    Inv { ringOfThree with head := 0, tail := 1, ring := [(1, 0x62), (2, 0x63), (3, 0x64)] } :=
  ⟨by decide, by decide, by decide, by decide, by decide, by decide⟩
theorem witness_BlockedOperations : sending.hostop ≠ .idle ∧ waitingSince7.hostop ≠ .idle := by decide
theorem witness_DecodeIsMalformed :
    ((received small []).rxLen = 0 ∧ (received small []).rxbuf.holds 0 [] ∧ malformedCause 0x04 []) ∧
    ((received small (wireNak nakV35)).rxLen = (wireNak nakV35).length ∧
      (received small (wireNak nakV35)).rxbuf.holds 0 (wireNak nakV35) ∧ (wireNak nakV35).length ≤ small.frameCap) :=
  ⟨⟨rfl, by decide, .inl rfl⟩, by decide⟩
theorem witness_each_malformed_cause : malformedCause 0x04 [0x05] ∧ malformedCause 0x04 [0x06] ∧
    malformedCause 0x04 [0x15] ∧
    malformedCause 0x04 [0x15, 0x2F, 0x30, 0x52, 0x53, 0x53, 0x30, 0x31, 0x31, 0x31, 0x33, 0x32] ∧
    malformedCause 0x04 [0x06, 0x30, 0x30, 0x52, 0x53, 0x53, 0x30, 0x31, 0x30, 0x30] ∧
    malformedCause 0x04 [0x06, 0x30, 0x30, 0x52, 0x53, 0x53, 0x30, 0x31, 0x30, 0x30, 0x03] :=
  ⟨.inr (.inl (by decide)), .inr (.inr (.inl (by decide))), .inr (.inr (.inr (.inl (by decide)))),
   .inr (.inr (.inr (.inr (.inl (.inr ⟨by decide, 1, by decide, 0x2F, by decide, by decide⟩))))),
   .inr (.inr (.inr (.inr (.inr (.inl ⟨by decide, 0x30, 0x30, 0, by decide, by decide, by decide, by decide⟩))))),
   .inr (.inr (.inr (.inr (.inr (.inr ⟨by decide, 0x30, 0x30, 0, by decide, by decide, by decide, by decide,
     by decide⟩)))))⟩
theorem witness_DecodeReturnsTheFields :
    (ackV30.data.length ≤ 255 ∧ termByte ackV30.term = small.respEnd ∧
      (received small (wireAck ackV30 ++ List.replicate 7 0x04)).rxLen = small.frameCap ∧
      (received small (wireAck ackV30 ++ List.replicate 7 0x04)).rxbuf.holds 0
        (wireAck ackV30 ++ List.replicate 7 0x04)) ∧
    ((received small (wireNak nakV35 ++ [])).rxLen = 12 ∧
      (received small (wireNak nakV35)).rxbuf.holds 0 (wireNak nakV35)) := by decide
theorem witness_ArrivedAck : base.cfg.Valid ∧ base.hostop = .idle ∧ (List.replicate 9 0xFF#8).length ≤ 255 ∧
    (wireAck { ackV30 with data := List.replicate 9 0xFF }).length = base.cfg.frameCap ∧
    termByte ackV30.term = base.cfg.respEnd := by decide
theorem witness_RingWrite : (ringOfThree.head + 1) % ringOfThree.cfg.ringCap = ringOfThree.tail ∧
    ((ringOfThree.head + 1) % ringOfThree.cfg.ringCap ≠ { ringOfThree with tail := 1 }.tail ∧
      ringOfThree.head + 1 = ringOfThree.cfg.ringCap) ∧ ringOfThree.hostop = .idle := by decide
theorem witness_RingRead : base.head = base.tail ∧
    ({ ringOfThree with head := 0, tail := 3, ring := [(3, 0x64)] }.head ≠ 3 ∧ 3 < ringOfThree.cfg.ringCap ∧
      Memory.read [(3, 0x64#8)] 3 = some 0x64) := by decide
theorem witness_RingIsABoundedQueue : Inv ringOfThree ∧ Inv base ∧ ringOfThree.hostop = .idle ∧ base.hostop = .idle ∧
    (ringContent ringOfThree).length = ringOfThree.cfg.ringCap - 1 ∧
    (ringContent base).length ≠ base.cfg.ringCap - 1 ∧ ringContent base = [] ∧
    ringContent ringOfThree = [some 0x61, some 0x62, some 0x63] :=
  ⟨by decide, by decide, rfl, rfl, by decide⟩
theorem witness_ProducerWritesAppend :
    Inv { sending with ring := ringOfThree.ring, head := 3 } ∧ Inv { sending with ring := ringOfThree.ring, head := 2 } ∧
    (ringContent { sending with ring := ringOfThree.ring, head := 3 }).length = sending.cfg.ringCap - 1 ∧
    (ringContent { sending with ring := ringOfThree.ring, head := 2 }).length + 1 = sending.cfg.ringCap - 1 :=
  ⟨by decide, by decide, by decide⟩
theorem witness_OnlyTheTickMovesTheClock : (∃ t, step (withHead base (.event .idle)) = .next t) ∧
    (withHead base (.event .idle)).pending.head? ≠ some (.event .tick) := ⟨⟨_, rfl⟩, by decide⟩
theorem witness_StepKeeps : Inv (withHead base (command { op := 7 })) ∧ StoresGood (withHead base (command { op := 7 })) ∧
    ∃ t, step (withHead base (command { op := 7 })) = .next t := ⟨by decide, by decide, ⟨_, rfl⟩⟩
theorem witness_OnlyCompactBeforeEncodeFaults : Inv (withHead base (command { op := 4 })) ∧
    ∃ f, step (withHead base (command { op := 4 })) = .fault f := ⟨by decide, ⟨_, rfl⟩⟩
theorem witness_SyncMoves :
    [step (withHead { waitingSince7 with now := 9 } (.event .reset)), step (withHead base (command { op := 7 })),
     step (withHead { sending with txIdx := 2, sync := .armed } (.event .hostPoll)),
     step (withHead base (command { op := 8 })),
     step (withHead { arrived with sync := .waiting, hostop := .waiting } (.event .hostPoll)),
     step (withHead { waitingSince7 with now := 107 } (.event .hostPoll))].map (fun o => after o (fun s => s.sync)) =
    [some .idle, some .armed, some .sent, some .waiting, some .completed, some .timedOut] := by decide
theorem witness_SyncMoves_from_good_states : Inv { sending with txIdx := 2, sync := .armed } ∧
    Inv { arrived with sync := .waiting, hostop := .waiting } ∧ Inv { waitingSince7 with now := 107 } :=
  ⟨by decide, by decide, by decide⟩
theorem witness_Trace : (∃ t, step (withHead sending (.event .txAccept)) = .next t) ∧
    (∃ t, step (withHead { sending with txTrace := [0x05] } (.event .reset)) = .next t) := ⟨⟨_, rfl⟩, ⟨_, rfl⟩⟩
theorem witness_FrameArrived :
    [step (withHead { base with rxArmed := true, rxLen := 1 } (.event .idle)),
     step (withHead { base with rxArmed := true, rxLen := 19 } (.event (.rx 0x04))),
     step (withHead arrived (command { op := 7 })), step (withHead arrived (.event .reset))].map
      (fun o => after o (fun s => s.frameArrived)) = [some true, some true, some false, some false] := by decide
theorem witness_RingAndReceiver : (∃ t, runEvent (.rx 0x41) { base with rxArmed := true } = .next t) ∧
    (∃ t, exec (.rbWrite .producer 0x41) base = .next t) ∧ (∃ t, exec .rbRead base = .next t) ∧
    ∃ t, exec .rbFlush base = .next t := ⟨⟨_, rfl⟩, ⟨_, rfl⟩, ⟨_, rfl⟩, ⟨_, rfl⟩⟩
theorem witness_CompactedFrameIsStable : (withHead sending (.event (.rx 0x41))).hostop = .sending ∧
    (∃ t, step (withHead sending (.event (.rx 0x41))) = .next t) ∧
    (withHead sending (.event (.rx 0x41))).pending.head? ≠ some (.event .reset) := ⟨rfl, ⟨_, rfl⟩, by decide⟩
theorem witness_Transact : ({ status := .ok } : Return).status = .ok ∧
    ({ status := .transmitTimeout } : Return).status ≠ .ok := by decide

end Sys2Proof.Tests
end

section
/-! One step as a function of the head of the schedule: an event, a request that decodes to an instruction, bytes of
the line that decode to nothing, or no entry at all. -/

namespace Sys2Proof.Machine

/-! ## The head of the schedule -/

theorem step_of_empty {s : State} (h : s.pending = []) : step s = .next s := by
  obtain ⟨-, hs⟩ | ⟨x, rest, hx, -⟩ := step_cases s
  · exact hs
  · rw [h] at hx; cases hx

theorem step_of_head {s : State} {x : Stimulus} {rest : List Stimulus} (h : s.pending = x :: rest) :
    step s = runStimulus x (s.withPending rest) := by
  obtain ⟨hnil, -⟩ | ⟨y, rest', hy, hs⟩ := step_cases s
  · rw [h] at hnil; cases hnil
  · rw [h] at hy; cases hy; exact hs

/-! ## One entry of the schedule -/

@[simp] theorem runStimulus_event (e : Event) (s : State) : runStimulus (.event e) s = runEvent e s := rfl

theorem runStimulus_of_decode_ok {r : Request} {i : Instr} (h : decode r = .ok i) (s : State) :
    runStimulus (.request r) s = exec i s := by
  simp only [runStimulus, h]

theorem runStimulus_of_decode_error {r : Request} {e : DecodeError} (h : decode r = .error e) (s : State) :
    runStimulus (.request r) s = undecoded e r s := by
  simp only [runStimulus, h]

@[simp] theorem undecoded_foreign_bytes (bytes : List Byte) (s : State) :
    undecoded .notAFrame (.line bytes) s = receiveBytes bytes s := rfl

/-! ## A word of the opcode table -/

@[simp] theorem withFetchWord_pending (s : State) (nbits w : Nat) :
    (s.withFetchWord nbits w).pending = .request (tableRequest nbits w) :: s.pending := rfl

/-- Taking the word again leaves the state it was placed in. -/
@[simp] theorem withFetchWord_taken (s : State) (nbits w : Nat) :
    (s.withFetchWord nbits w).withPending s.pending = s := rfl

theorem decodeTableWord_eq_some {nbits w : Nat} {i : Instr} :
    decodeTableWord nbits w = some i ↔ decode (tableRequest nbits w) = .ok i := by
  unfold decodeTableWord
  cases decode (tableRequest nbits w) <;> simp

/-! ## Bytes of the line as events -/

/-- A byte sequence arrives as its `!RX` events, the first byte first (R62, R194). -/
theorem runEvents_rx : ∀ (bytes : List Byte) (s : State),
    runEvents (bytes.map Event.rx) s = receiveBytes bytes s
  | [], _ => rfl
  | b :: bs, s => congrArg (andThen (eventRx b s)) (funext (runEvents_rx bs))

/-! ## The scope statements -/

/-- Settles O8: the head of the schedule is what a step runs, and a request that decodes runs as its instruction. -/
theorem stepRunsTheDecodedInstruction : Obligations.StepRunsTheDecodedInstruction := by
  refine ⟨fun s r rest i hp hd => ?request, fun s nbits w i hw => ?word⟩
  case request => rw [step_of_head hp, runStimulus_of_decode_ok hd]
  case word =>
    have hd := decodeTableWord_eq_some.1 hw
    rw [step_of_head (withFetchWord_pending s nbits w), runStimulus_of_decode_ok hd, withFetchWord_taken]

/-- Settles O9, by the head of the schedule: an event, bytes that are no row of the table, or nothing. -/
theorem stepRunsEventsAndForeignBytes : Obligations.StepRunsEventsAndForeignBytes := by
  refine ⟨fun s e rest hp => ?event, fun s bytes rest hp hd => ?foreign, fun s hp => step_of_empty hp⟩
  case event => rw [step_of_head hp, runStimulus_event]
  case foreign => rw [step_of_head hp, runStimulus_of_decode_error hd, undecoded_foreign_bytes, runEvents_rx]

end Sys2Proof.Machine
end

section
/-! Refusals, faults and frames of the shared operations, and of each instruction and event: which of them the HOST's
port guards, what a step is in terms of them, and what no operation touches. -/

namespace Sys2Proof.Machine

/-! ## Refusals and faults of accesses -/

/-- A sequence is refused where its first part is, or its second part on the state of the first. -/
theorem andThen_refused {o : Outcome} {k : State → Outcome} {r : Refusal} :
    andThen o k = .refused r ↔ o = .refused r ∨ ∃ s, o = .next s ∧ k s = .refused r := by
  cases o <;> simp

/-- An access is never refused: only the rest can be. -/
theorem withValue_refused {α : Type} {x : Except Fault α} {k : α → Outcome} {r : Refusal} :
    withValue x k = .refused r ↔ ∃ a, x = .ok a ∧ k a = .refused r := by
  cases x <;> simp

/-- A read inside a store, of an index that nothing has written, faults and names both. -/
theorem readStore_of_unwritten {n : StoreName} {i : Nat} {s : State} (hi : i < s.storeCap n)
    (h : (s.store n).read i = none) : readStore n i s = .error (.unwrittenByte n i) := by
  simp [readStore, hi, h]

/-- A read inside a store, of an index that has been written, answers. -/
theorem readStore_of_written {n : StoreName} {i : Nat} {s : State} (hi : i < s.storeCap n)
    (h : ((s.store n).read i).isSome = true) : ∃ b, readStore n i s = .ok b := by
  obtain ⟨b, hb⟩ := Option.isSome_iff_exists.1 h
  exact ⟨b, readStore_ok.2 ⟨hi, hb⟩⟩

/-- A write inside a store answers. -/
theorem writeStore_of_lt {n : StoreName} {i : Nat} {s : State} (hi : i < s.storeCap n) (v : Byte) :
    ∃ t, writeStore n i v s = .ok t := ⟨_, writeStore_ok.2 ⟨hi, rfl⟩⟩

/-- Bytes of the line are never refused: the line has no port to be busy. -/
theorem receiveBytes_not_refused {r : Refusal} : ∀ (bs : List Byte) (s : State), receiveBytes bs s ≠ .refused r
  | [], s => by simp [receiveBytes_nil]
  | b :: bs, s => by
    rw [receiveBytes_cons, Ne, andThen_refused]
    rintro (h | ⟨u, -, h⟩)
    · obtain ⟨a, -, h⟩ := withValue_refused.1 h
      cases h
    · exact receiveBytes_not_refused bs u h

/-- A ring write is never refused: a full ring is a status. -/
theorem ringWrite_not_refused {port : Port} {v : Byte} {s : State} {r : Refusal} :
    ringWrite port v s ≠ .refused r := by
  unfold ringWrite
  split
  · simp
  · rw [Ne, withValue_refused]
    rintro ⟨u, -, h⟩
    cases h

/-! ## The HOST's operations and the others -/

/-- Every operation of the HOST's port stands behind the guard of R35. -/
theorem exec_of_hostOperation {i : Instr} (h : isHostOperation i = true) :
    ∃ k : State → Outcome, ∀ s, exec i s = hostStep s k := by
  cases i
  case encRss | encWss | encRsb | encWsb | compact | send | dispatch | rxArm | rxWait | decodeOp | rbRead | rbFlush =>
    exact ⟨_, fun _ => rfl⟩
  case rbWrite port v =>
    cases port
    case host => exact ⟨_, fun _ => rfl⟩
    case producer => cases h
  all_goals cases h

/-- An instruction that is no operation of the HOST's port is the PRODUCER's ring write or bytes of the line. -/
theorem exec_of_not_hostOperation {i : Instr} (h : isHostOperation i = false) :
    (∃ v, i = .rbWrite .producer v) ∨ ∃ bs, ∀ s, exec i s = receiveBytes bs s := by
  cases i
  case reqRss | reqWss | reqRsb | reqWsb | respAck | respNak | ctlEnq | ctlAck | ctlNak | ctlEot | ctlEtx =>
    exact .inr ⟨_, fun _ => rfl⟩
  case rbWrite port v =>
    cases port
    case host => cases h
    case producer => exact .inl ⟨v, rfl⟩
  all_goals cases h

/-- Settles O15: the HOST's operations stand behind the guard, and neither of the two other kinds is ever refused. -/
theorem hostOperationsAreBlockedWhileOneIsInProgress :
    Obligations.HostOperationsAreBlockedWhileOneIsInProgress := by
  intro s i hbusy
  constructor
  · intro h
    obtain ⟨k, hk⟩ := exec_of_hostOperation h
    rw [hk, hostStep_blocked hbusy]
  · intro h
    obtain ⟨v, rfl⟩ | ⟨bs, hbs⟩ := exec_of_not_hostOperation h
    · exact ringWrite_not_refused
    · rw [hbs]
      exact receiveBytes_not_refused bs s

/-! ## What a step runs -/

/-- The five kinds of step: nothing presented, an event, an instruction, bytes of the line that are no row of the table,
or a request refused by name. -/
theorem step_kinds (s : State) :
    (s.pending = [] ∧ step s = .next s) ∨
    (∃ e rest, headEvent s e ∧ step s = runEvent e (s.withPending rest)) ∨
    (∃ i rest, headInstr s i ∧ step s = exec i (s.withPending rest)) ∨
    (∃ bs rest, step s = receiveBytes bs (s.withPending rest)) ∨
    ∃ r, step s = .refused r := by
  obtain h | ⟨x, rest, hp, hs⟩ := step_cases s
  · exact .inl h
  · cases x with
    | event e => exact .inr (.inl ⟨e, rest, ⟨rest, hp⟩, hs⟩)
    | request r =>
      cases hd : decode r with
      | ok i => exact .inr (.inr (.inl ⟨i, rest, ⟨r, rest, hp, hd⟩, hs.trans (runStimulus_of_decode_ok hd _)⟩))
      | error e =>
        rw [runStimulus_of_decode_error hd] at hs
        cases e with
        | notAFrame => exact .inr (.inr (.inr (.inl ⟨_, rest, hs⟩)))
        | reservedOperation | reservedDevice | reservedSize | producerPort =>
          exact .inr (.inr (.inr (.inr ⟨_, hs⟩)))

/-! ## What an operation leaves alone -/

/-- What no operation of a port and no byte of the line touches: the parameters, the clock and the trace of the line. -/
def SameSurroundings (s t : State) : Prop := t.cfg = s.cfg ∧ t.now = s.now ∧ t.txTrace = s.txTrace

theorem SameSurroundings.refl (s : State) : SameSurroundings s s := ⟨rfl, rfl, rfl⟩

theorem SameSurroundings.trans {s t u : State} (h : SameSurroundings s t) (h' : SameSurroundings t u) :
    SameSurroundings s u := ⟨h'.1.trans h.1, h'.2.1.trans h.2.1, h'.2.2.trans h.2.2⟩

/-- The compact stage writes `TXBUF` and `TX_LEN` and nothing else. -/
theorem compactFrame_frame {s t : State} {st : Status} (h : compactFrame s = .ok (t, st)) :
    t = { s with txbuf := t.txbuf, txLen := t.txLen } := by
  obtain ⟨out, found, -, ⟨-, -, rfl⟩ | ⟨-, -, rfl⟩⟩ := compactFrame_ok h <;> rfl

/-- A received byte writes the receive side and nothing else. -/
theorem receiveByte_frame {b : Byte} {s t : State} (h : receiveByte b s = .ok t) :
    t = { s with rxbuf := t.rxbuf, rxLen := t.rxLen, rxArmed := t.rxArmed, frameArrived := t.frameArrived } := by
  obtain ⟨-, rfl⟩ | ⟨-, -, rfl⟩ := receiveByte_ok.1 h
  · rfl
  · rw [countReceived_eq]

theorem encodeFrame_sameSurroundings {c : Command} {s t : State} (h : encodeFrame c s = .next t) :
    SameSurroundings s t := by
  obtain ⟨-, -, rfl⟩ := encodeFrame_next.1 h
  exact .refl s

theorem compactFrame_sameSurroundings {s t : State} {st : Status} (h : compactFrame s = .ok (t, st)) :
    SameSurroundings s t := by
  rw [compactFrame_frame h]
  exact .refl s

theorem receiveByte_sameSurroundings {b : Byte} {s t : State} (h : receiveByte b s = .ok t) :
    SameSurroundings s t := by
  rw [receiveByte_frame h]
  exact .refl s

theorem receiveBytes_sameSurroundings {bs : List Byte} {s t : State} (h : receiveBytes bs s = .next t) :
    SameSurroundings s t :=
  receiveBytes_keeps (P := SameSurroundings s) (fun hs hb => hs.trans (receiveByte_sameSurroundings hb)) (.refl s) h

theorem encodeOperation_sameSurroundings {c : Command} {s t : State} (h : encodeOperation c s = .next t) :
    SameSurroundings s t := by
  obtain ⟨-, h⟩ := hostStep_next.1 h
  obtain ⟨u, hu, h⟩ := andThen_next.1 h
  obtain rfl := finish_next.1 h
  have hsu := encodeFrame_sameSurroundings hu
  exact hsu

theorem execDispatch_sameSurroundings {c : Command} {s t : State} (h : execDispatch c s = .next t) :
    SameSurroundings s t := by
  obtain ⟨-, h⟩ := hostStep_next.1 h
  obtain ⟨u, hu, h⟩ := andThen_next.1 h
  obtain ⟨⟨v, st⟩, hv, h⟩ := withValue_next.1 h
  have hsv := (encodeFrame_sameSurroundings hu).trans (compactFrame_sameSurroundings hv)
  simp only at h
  split at h
  · cases h; exact hsv
  · obtain rfl := finish_next.1 h; exact hsv

theorem ringWrite_sameSurroundings {port : Port} {v : Byte} {s t : State} (h : ringWrite port v s = .next t) :
    SameSurroundings s t := by
  obtain ⟨-, rfl⟩ | ⟨-, -, rfl⟩ := ringWrite_next.1 h <;> cases port <;> exact .refl s

/-- No instruction touches the parameters, the clock or the trace of the line. -/
theorem exec_sameSurroundings {i : Instr} {s t : State} (h : exec i s = .next t) : SameSurroundings s t := by
  cases i <;> simp only [exec] at h
  case encRss | encWss | encRsb | encWsb => exact encodeOperation_sameSurroundings h
  case compact =>
    obtain ⟨-, h⟩ := hostStep_next.1 h
    obtain ⟨⟨v, st⟩, hv, h⟩ := withValue_next.1 h
    obtain rfl := finish_next.1 h
    have hsv := compactFrame_sameSurroundings hv
    exact hsv
  case send | rxWait =>
    obtain ⟨-, h⟩ := hostStep_next.1 h
    cases h; exact .refl s
  case dispatch => exact execDispatch_sameSurroundings h
  case rxArm | rbFlush =>
    obtain ⟨-, h⟩ := hostStep_next.1 h
    obtain rfl := finish_next.1 h
    exact .refl s
  case decodeOp =>
    obtain ⟨-, h⟩ := hostStep_next.1 h
    obtain ⟨bs, -, h⟩ := withValue_next.1 h
    cases h
    unfold decodeReturn
    split <;> exact .refl s
  case rbWrite port v =>
    cases port
    · exact ringWrite_sameSurroundings (hostStep_next.1 h).2
    · exact ringWrite_sameSurroundings h
  case rbRead =>
    obtain ⟨-, h⟩ := hostStep_next.1 h
    split at h
    · obtain rfl := finish_next.1 h; exact .refl s
    · obtain ⟨v, -, h⟩ := withValue_next.1 h
      obtain rfl := finish_next.1 h
      exact .refl s
  all_goals exact receiveBytes_sameSurroundings h

/-! ## The parameters and the trace -/

/-- No move of the machine writes the parameters. -/
theorem cfg_keptByMoves (c : Config) : KeptByMoves fun s => s.cfg = c where
  pending _ _ h := h
  returnHost _ _ _ h := h
  returnProducer _ _ h := h
  encode _ _ h _ _ _ := h
  compact _ _ _ h _ hc := (compactFrame_sameSurroundings hc).1.trans h
  startSend _ h _ := h
  arm _ h _ := h
  startWait _ h _ := h
  ringWrite _ _ h _ _ := h
  ringRead _ h _ := h
  ringFlush _ h := h
  receive _ _ _ h hb := (receiveByte_sameSurroundings hb).1.trans h
  lineIdle _ h _ _ := h
  emit _ _ h _ := h
  tick _ h := h
  completeSend _ h _ := h
  timeoutSend _ h _ := h
  completeWait _ h _ := h
  timeoutWait _ h _ := h
  reset _ h := h

/-- Settles O51, move by move. -/
theorem stepKeepsTheParameters : Obligations.StepKeepsTheParameters :=
  fun s _ e => (cfg_keptByMoves s.cfg).step rfl e

/-- What `!TXACC` does when it happens: it was enabled, and it emits the byte of `TXBUF` at `TX_IDX` (R178). -/
theorem eventTxAccept_next {s t : State} (h : eventTxAccept s = .next t) :
    txAcceptEnabled s ∧ ∃ b, s.txbuf.read s.txIdx = some b ∧ t = emitByte b s := by
  unfold eventTxAccept at h
  split at h
  · next hen =>
    obtain ⟨b, hb, h⟩ := withValue_next.1 h
    cases h
    exact ⟨hen, b, (readStore_ok.1 hb).2, rfl⟩
  · cases h

/-- The HOST's completion steps emit nothing. -/
theorem eventHostPoll_txTrace {s t : State} (h : eventHostPoll s = .next t) : t.txTrace = s.txTrace := by
  unfold eventHostPoll at h
  split at h
  · cases h
  all_goals
    split at h
    · cases h; rfl
    · split at h <;> cases h <;> rfl

/-- Only `!TXACC` and the reset write the trace of the line. -/
theorem runEvent_txTrace {e : Event} {s t : State} (hacc : e ≠ .txAccept) (hreset : e ≠ .reset)
    (h : runEvent e s = .next t) : t.txTrace = s.txTrace := by
  cases e
  case txAccept => exact absurd rfl hacc
  case rx b =>
    obtain ⟨u, hu, h⟩ := withValue_next.1 h
    cases h
    exact (receiveByte_sameSurroundings hu).2.2
  case idle =>
    simp only [runEvent, eventIdle] at h
    split at h <;> cases h <;> rfl
  case tick => cases h; rfl
  case hostPoll => exact eventHostPoll_txTrace h
  case reset => exact absurd rfl hreset

/-- Settles O53, by the kind of step: of all of them only `!TXACC` and the reset write the trace. -/
theorem traceGrowsOnlyByAcceptedBytes : Obligations.TraceGrowsOnlyByAcceptedBytes := by
  intro s t e
  obtain ⟨-, hs⟩ | ⟨ev, rest, hev, hs⟩ | ⟨i, rest, -, hs⟩ | ⟨bs, rest, hs⟩ | ⟨r, hs⟩ := step_kinds s <;> rw [hs] at e
  case inl => cases e; exact .inl rfl
  case inr.inl =>
    by_cases hacc : ev = .txAccept
    · subst hacc
      obtain ⟨⟨hop, hlt⟩, b, hb, rfl⟩ := eventTxAccept_next e
      exact .inr (.inl ⟨hev, hop, hlt, b, hb, rfl⟩)
    · by_cases hreset : ev = .reset
      · subst hreset
        cases e
        exact .inr (.inr ⟨hev, rfl⟩)
      · have htrace := runEvent_txTrace hacc hreset e
        exact .inl htrace
  case inr.inr.inl =>
    obtain ⟨-, -, htrace⟩ := exec_sameSurroundings e
    exact .inl htrace
  case inr.inr.inr.inl =>
    obtain ⟨-, -, htrace⟩ := receiveBytes_sameSurroundings e
    exact .inl htrace
  case inr.inr.inr.inr => cases e

end Sys2Proof.Machine
end

section
/-! The invariant of R40, clause by clause: each kind of move keeps the clauses it writes into, and no clause depends on
anything else. -/

namespace Sys2Proof.Machine

/-! ## Parameters (R5) -/

theorem frameCap_pos_of_valid {cfg : Config} (hv : cfg.Valid) : 0 < cfg.frameCap := by
  obtain ⟨hname, -, hview, -⟩ := hv
  omega

theorem two_le_ringCap_of_valid {cfg : Config} (hv : cfg.Valid) : 2 ≤ cfg.ringCap := by
  obtain ⟨-, -, -, hring, -⟩ := hv
  exact hring

theorem clockSpan_pos (cfg : Config) : 0 < cfg.clockSpan := Nat.two_pow_pos _

/-! ## Stores -/

/-- An index that holds a value holds one after any write. -/
theorem Memory.isSome_read_write {m : Memory} {a i : Nat} (v : Byte) (h : (m.read i).isSome = true) :
    ((m.write a v).read i).isSome = true := by
  rw [Memory.read_write]
  split
  · rfl
  · exact h

/-- The index just written holds a value. -/
theorem Memory.isSome_read_write_same (m : Memory) (a : Nat) (v : Byte) : ((m.write a v).read a).isSome = true := by
  rw [Memory.read_write_same]; rfl

/-! ## The ring's slots (R240) -/

/-- The slot after a slot, without the remainder. -/
theorem nextSlot_eq {cfg : Config} {i : Nat} (h : i < cfg.ringCap) :
    nextSlot cfg i = if i + 1 = cfg.ringCap then 0 else i + 1 := by
  unfold nextSlot
  split
  · next he => rw [he, Nat.mod_self]
  · exact Nat.mod_eq_of_lt (by omega)

theorem nextSlot_lt {cfg : Config} {i : Nat} (h : i < cfg.ringCap) : nextSlot cfg i < cfg.ringCap :=
  Nat.mod_lt _ (by omega)

/-- The number of bytes in the ring, without the remainder. -/
theorem ringUsed_eq {s : State} (hh : s.head < s.cfg.ringCap) (ht : s.tail < s.cfg.ringCap) :
    ringUsed s = if s.tail ≤ s.head then s.head - s.tail else s.head + s.cfg.ringCap - s.tail := by
  unfold ringUsed
  rw [Nat.mod_eq_of_lt ht]
  split
  · next hle =>
    rw [show s.head + (s.cfg.ringCap - s.tail) = s.head - s.tail + s.cfg.ringCap by omega, Nat.add_mod_right,
      Nat.mod_eq_of_lt (by omega)]
  · rw [Nat.mod_eq_of_lt (by omega)]
    omega

/-- The slot behind the ring's content is the one `HEAD` names. -/
theorem slot_of_ringUsed {s : State} (hh : s.head < s.cfg.ringCap) (ht : s.tail < s.cfg.ringCap) :
    (s.tail + ringUsed s) % s.cfg.ringCap = s.head := by
  rw [ringUsed_eq hh ht]
  split
  · rw [Nat.mod_eq_of_lt (by omega)]
    omega
  · rw [show s.tail + (s.head + s.cfg.ringCap - s.tail) = s.head + s.cfg.ringCap by omega, Nat.add_mod_right,
      Nat.mod_eq_of_lt hh]

/-- A write into a ring that is not full makes its content one byte longer. -/
theorem ringUsed_write {s : State} (hh : s.head < s.cfg.ringCap) (ht : s.tail < s.cfg.ringCap) (hf : ¬ ringFull s)
    (m : Memory) : ringUsed { s with ring := m, head := nextSlot s.cfg s.head } = ringUsed s + 1 := by
  rw [ringUsed_eq (s := s) hh ht, ringUsed_eq]
  · unfold ringFull at hf
    by_cases hwrap : s.head + 1 = s.cfg.ringCap <;> simp only [nextSlot_eq hh, hwrap, if_true, if_false] at hf ⊢ <;>
      split <;> split <;> omega
  · exact nextSlot_lt hh
  · exact ht

/-- A read from a ring that is not empty makes its content one byte shorter. -/
theorem ringUsed_read {s : State} (hh : s.head < s.cfg.ringCap) (ht : s.tail < s.cfg.ringCap) (he : ¬ ringEmpty s) :
    ringUsed { s with tail := nextSlot s.cfg s.tail } + 1 = ringUsed s := by
  rw [ringUsed_eq (s := s) hh ht, ringUsed_eq]
  · unfold ringEmpty at he
    by_cases hwrap : s.tail + 1 = s.cfg.ringCap <;> simp only [nextSlot_eq ht, hwrap, if_true, if_false] <;>
      split <;> split <;> omega
  · exact hh
  · exact nextSlot_lt ht

/-- A ring that is not empty holds a byte. -/
theorem ringUsed_pos {s : State} (hh : s.head < s.cfg.ringCap) (ht : s.tail < s.cfg.ringCap) (he : ¬ ringEmpty s) :
    0 < ringUsed s := by
  have := ringUsed_read hh ht he
  omega

/-- The slots of the content after a read are those before it, less the first. -/
theorem slot_of_nextSlot (cfg : Config) (i k : Nat) : (nextSlot cfg i + k) % cfg.ringCap = (i + (k + 1)) % cfg.ringCap := by
  rw [nextSlot, Nat.mod_add_mod, Nat.add_assoc, Nat.add_comm 1 k]

theorem ringGood_write {s : State} (h : RingGood s) (hf : ¬ ringFull s) (v : Byte) :
    RingGood { s with ring := s.ring.write s.head v, head := nextSlot s.cfg s.head } := by
  obtain ⟨hh, ht, hall⟩ := h
  refine ⟨nextSlot_lt hh, ht, fun k hk => ?_⟩
  rw [ringUsed_write hh ht hf] at hk
  obtain hk | rfl : k < ringUsed s ∨ k = ringUsed s := by omega
  · exact Memory.isSome_read_write v (hall k hk)
  · simp only [slot_of_ringUsed hh ht, Memory.isSome_read_write_same]

theorem ringGood_read {s : State} (h : RingGood s) (he : ¬ ringEmpty s) :
    RingGood { s with tail := nextSlot s.cfg s.tail } := by
  obtain ⟨hh, ht, hall⟩ := h
  refine ⟨hh, nextSlot_lt ht, fun k hk => ?_⟩
  have hused := ringUsed_read hh ht he
  simp only [slot_of_nextSlot]
  exact hall (k + 1) (by omega)

/-- A ring whose indices are both 0 holds nothing. -/
theorem ringGood_of_zero {s : State} (hcap : 2 ≤ s.cfg.ringCap) (hh : s.head = 0) (ht : s.tail = 0) : RingGood s := by
  have hused : ringUsed s = 0 := by simp [ringUsed, hh, ht]
  exact ⟨by omega, by omega, fun k hk => by omega⟩

/-! ## The compacted frame (R40 f) -/

/-- Bytes that are neither zero nor the marker, and the marker after them, are a compacted frame. -/
theorem compactByte_of_body {body : List Byte} (h : ∀ b ∈ body, b ≠ 0x00#8 ∧ b ≠ Config.EOT) {i : Nat}
    (hi : i < (body ++ [Config.EOT]).length) :
    ((body ++ [Config.EOT])[i]?).any (compactByte (decide (i + 1 = (body ++ [Config.EOT]).length))) = true := by
  simp only [List.length_append, List.length_singleton] at hi ⊢
  obtain hlt | rfl : i < body.length ∨ i = body.length := by omega
  · obtain ⟨hz, he⟩ := h body[i] (List.getElem_mem hlt)
    have hlast : i ≠ body.length := by omega
    rw [List.getElem?_append_left hlt, List.getElem?_eq_getElem hlt]
    simp [hz, he, hlast]
  · simp [Config.EOT]

/-- What a successful compaction leaves is a compacted frame with its terminator. -/
theorem transmitGood_of_compacted {s : State} {body : List Byte} (hidle : s.hostop = .idle)
    (hidx : s.txIdx ≤ s.cfg.frameCap) (hlen : (body ++ [Config.EOT]).length ≤ s.cfg.frameCap)
    (h : ∀ b ∈ body, b ≠ 0x00#8 ∧ b ≠ Config.EOT) :
    TransmitGood { s with txbuf := s.txbuf.writeBytes 0 (body ++ [Config.EOT] ++ [0x00#8])
                          txLen := (body ++ [Config.EOT]).length } := by
  refine ⟨hlen, hidx, fun _ => ⟨fun i hi => ?_, ?_⟩, fun hsend => ?_⟩
  · have hin : 0 ≤ i ∧ i < 0 + (body ++ [Config.EOT] ++ [0x00#8]).length := by
      rw [List.length_append (bs := [0x00#8]), List.length_singleton]
      simp only at hi
      omega
    rw [Memory.read_writeBytes, if_pos hin, Nat.sub_zero, List.getElem?_append_left hi]
    exact compactByte_of_body h hi
  · rw [Memory.read_writeBytes, if_pos (by simp), Nat.sub_zero, List.getElem?_concat_length]
  · rw [hidle] at hsend
    cases hsend

/-- With nothing to transmit and no send in progress the transmit side is good. -/
theorem transmitGood_of_empty {s : State} (hidle : s.hostop = .idle) (hidx : s.txIdx ≤ s.cfg.frameCap)
    (hlen : s.txLen = 0) : TransmitGood s :=
  ⟨by omega, hidx, fun h => by omega, fun h => by rw [hidle] at h; cases h⟩

/-! ## Each kind of move -/

/-- R46 gives a good state, under any valid parameters and any reading of the clock. -/
theorem inv_resetWith {cfg : Config} {now : Nat} (hv : cfg.Valid) (hnow : now < cfg.clockSpan) (p : List Stimulus) :
    Inv (State.resetWith cfg now p) := by
  have hspan := clockSpan_pos cfg
  exact ⟨hv, ⟨⟨rfl, rfl⟩, ⟨rfl, rfl⟩, ⟨rfl, rfl⟩, ⟨rfl, rfl⟩⟩, .inl rfl,
    transmitGood_of_empty rfl (Nat.zero_le _) rfl,
    ⟨Nat.zero_le _, nofun, nofun, nofun⟩, ⟨nofun, nofun⟩, ringGood_of_zero (two_le_ringCap_of_valid hv) rfl rfl, hnow, hspan, hspan⟩

theorem inv_reset {s : State} (h : Inv s) (p : List Stimulus) : Inv (State.resetWith s.cfg s.now p) := by
  obtain ⟨hv, -, -, -, -, -, -, hnow, -⟩ := h
  exact inv_resetWith hv hnow p

theorem inv_encode {s : State} {c : Command} (h : Inv s) (hlen : (requestView s.cfg c).length ≤ s.cfg.frameCap) :
    Inv { s with frame := Memory.ofBytes 0 (frameImage s.cfg c) } := by
  obtain ⟨hv, ⟨-, htxbuf, hrxbuf, hring⟩, -, htx, hrx, hwait, hrg, hclk⟩ := h
  have himg : (frameImage s.cfg c).length = s.cfg.frameCap := frameImage_length hlen
  have hfits : 0 + (frameImage s.cfg c).length ≤ s.cfg.frameCap := by omega
  refine ⟨hv, ⟨⟨Memory.wf_ofBytes 0 _, Memory.within_ofBytes _ 0 hfits⟩, htxbuf, hrxbuf, hring⟩,
    .inr fun i hi => ?_, htx, hrx, hwait, hrg, hclk⟩
  rw [read_encoded, List.getElem?_eq_getElem (himg ▸ hi)]
  rfl

theorem inv_compact {s t : State} {st : Status} (h : Inv s) (hidle : s.hostop = .idle)
    (hc : compactFrame s = .ok (t, st)) : Inv t := by
  obtain ⟨hv, ⟨hframe, ⟨hwf, hwithin⟩, hrxbuf, hring⟩, hfr, ⟨-, hidx, -⟩, hrx, hwait, hrg, hclk⟩ := h
  obtain ⟨out, found, hs, ⟨rfl, -, rfl⟩ | ⟨rfl, -, rfl⟩⟩ := compactFrame_ok hc <;> obtain ⟨hlen, hout⟩ := scanFrame_ok hs
  · obtain ⟨body, rfl, hbody⟩ := hout
    have hfits : 0 + (body ++ [Config.EOT] ++ [0x00#8]).length ≤ s.cfg.frameCap + 1 := by
      rw [List.length_append (bs := [0x00#8]), List.length_singleton]; omega
    exact ⟨hv, ⟨hframe, ⟨Memory.wf_writeBytes _ 0 hwf, Memory.within_writeBytes _ 0 hfits hwithin⟩, hrxbuf, hring⟩,
      hfr, transmitGood_of_compacted hidle hidx hlen hbody, hrx, hwait, hrg, hclk⟩
  · have hfits : 0 + out.length ≤ s.cfg.frameCap + 1 := by omega
    exact ⟨hv,
      ⟨hframe, ⟨Memory.wf_writeBytes _ 0 hwf, Memory.within_writeBytes _ 0 hfits hwithin⟩, hrxbuf, hring⟩,
      hfr, transmitGood_of_empty hidle hidx rfl, hrx, hwait, hrg, hclk⟩

theorem inv_startSend {s : State} (h : Inv s) (hidle : s.hostop = .idle) : Inv (startSend s) := by
  obtain ⟨hv, hst, hfr, ⟨hlen, -, hbytes, -⟩, hrx, hwait, hrg, hnow, -, hrx0⟩ := h
  have hsync : s.sync ≠ .waiting := fun e => by simp [hwait.2 e] at hidle
  exact ⟨hv, hst, hfr, ⟨hlen, Nat.zero_le _, hbytes, fun _ => Nat.zero_le _⟩, hrx,
    ⟨nofun, fun e => absurd e hsync⟩, hrg, hnow, hnow, hrx0⟩

theorem inv_armReceive {s : State} (h : Inv s) (hidle : s.hostop = .idle) : Inv (armReceive s) := by
  obtain ⟨hv, hst, hfr, htx, -, -, hrg, hclk⟩ := h
  exact ⟨hv, hst, hfr, htx, ⟨Nat.zero_le _, fun _ => frameCap_pos_of_valid hv, nofun, nofun⟩,
    ⟨fun e => by simp [hidle] at e, nofun⟩, hrg, hclk⟩

theorem inv_startWait {s : State} (h : Inv s) : Inv (startWait s) := by
  obtain ⟨hv, hst, hfr, ⟨hlen, hidx, hbytes, -⟩, hrx, -, hrg, hnow, htx0, -⟩ := h
  exact ⟨hv, hst, hfr, ⟨hlen, hidx, hbytes, nofun⟩, hrx, ⟨fun _ => rfl, fun _ => rfl⟩, hrg, hnow, htx0, hnow⟩

theorem inv_ringWrite {s : State} (h : Inv s) (hf : ¬ ringFull s) (v : Byte) :
    Inv { s with ring := s.ring.write s.head v, head := nextSlot s.cfg s.head } := by
  obtain ⟨hv, ⟨hframe, htxbuf, hrxbuf, hwf, hwithin⟩, hfr, htx, hrx, hwait, hrg, hclk⟩ := h
  exact ⟨hv, ⟨hframe, htxbuf, hrxbuf, Memory.wf_write hwf _ v, Memory.within_write v hrg.1 hwithin⟩, hfr, htx, hrx,
    hwait, ringGood_write hrg hf v, hclk⟩

theorem inv_ringRead {s : State} (h : Inv s) (he : ¬ ringEmpty s) : Inv { s with tail := nextSlot s.cfg s.tail } := by
  obtain ⟨hv, hst, hfr, htx, hrx, hwait, hrg, hclk⟩ := h
  exact ⟨hv, hst, hfr, htx, hrx, hwait, ringGood_read hrg he, hclk⟩

theorem inv_ringFlush {s : State} (h : Inv s) : Inv { s with head := 0, tail := 0 } := by
  obtain ⟨hv, hst, hfr, htx, hrx, hwait, -, hclk⟩ := h
  exact ⟨hv, hst, hfr, htx, hrx, hwait, ringGood_of_zero (two_le_ringCap_of_valid hv) rfl rfl, hclk⟩

/-- A byte stored at `RX_LEN` and counted keeps the receive side good; the one that fills the buffer completes the
receive (R194). -/
theorem receiveGood_countReceived {s : State} (h : ReceiveGood s) (harmed : s.rxArmed = true)
    (hlt : s.rxLen < s.cfg.frameCap) (b : Byte) :
    ReceiveGood (countReceived { s with rxbuf := s.rxbuf.write s.rxLen b }) := by
  obtain ⟨-, -, hall, harr⟩ := h
  rw [countReceived_eq]
  refine ⟨hlt, fun hlive => ?_, fun i hi => ?_, fun hset => ?_⟩
  · by_cases hfull : s.rxLen + 1 = s.cfg.frameCap
    · simp [hfull] at hlive
    · show s.rxLen + 1 < s.cfg.frameCap
      omega
  · obtain hi | rfl : i < s.rxLen ∨ i = s.rxLen := by simp only at hi; omega
    · exact Memory.isSome_read_write b (hall i hi)
    · exact Memory.isSome_read_write_same _ _ b
  · refine ⟨?_, Nat.succ_pos _⟩
    by_cases hfull : s.rxLen + 1 = s.cfg.frameCap
    · simp [hfull]
    · simp only [hfull, if_false] at hset
      rw [(harr hset).1] at harmed
      cases harmed

theorem inv_receiveByte {b : Byte} {s t : State} (h : Inv s) (hb : receiveByte b s = .ok t) : Inv t := by
  obtain ⟨-, rfl⟩ | ⟨harmed, hlt, rfl⟩ := receiveByte_ok.1 hb
  · exact h
  · obtain ⟨hv, ⟨hframe, htxbuf, ⟨hwf, hwithin⟩, hring⟩, hfr, htx, hrx, hwait, hrg, hclk⟩ := h
    have hgood := receiveGood_countReceived hrx harmed hlt b
    rw [countReceived_eq] at hgood ⊢
    exact ⟨hv, ⟨hframe, htxbuf, ⟨Memory.wf_write hwf _ b, Memory.within_write b hlt hwithin⟩, hring⟩, hfr, htx, hgood,
      hwait, hrg, hclk⟩

theorem inv_completeReceive {s : State} (h : Inv s) (hpos : 0 < s.rxLen) : Inv (completeReceive s) := by
  obtain ⟨hv, hst, hfr, htx, ⟨hlen, -, hall, -⟩, hwait, hrg, hclk⟩ := h
  exact ⟨hv, hst, hfr, htx, ⟨hlen, nofun, hall, fun _ => ⟨rfl, hpos⟩⟩, hwait, hrg, hclk⟩

theorem inv_emitByte {s : State} (h : Inv s) (hen : txAcceptEnabled s) (b : Byte) : Inv (emitByte b s) := by
  obtain ⟨hv, hst, hfr, ⟨hlen, -, hbytes, -⟩, hrx, hwait, hrg, hclk⟩ := h
  exact ⟨hv, hst, hfr, ⟨hlen, Nat.le_trans hen.2 hlen, hbytes, fun _ => hen.2⟩, hrx, hwait, hrg, hclk⟩

theorem inv_tick {s : State} (h : Inv s) : Inv { s with now := (s.now + 1) % s.cfg.clockSpan } := by
  obtain ⟨hv, hst, hfr, htx, hrx, hwait, hrg, -, htx0, hrx0⟩ := h
  exact ⟨hv, hst, hfr, htx, hrx, hwait, hrg, Nat.mod_lt _ (clockSpan_pos s.cfg), htx0, hrx0⟩

/-- The HOST is released: with a stage of the protocol that is not the wait, the state is good again. -/
theorem inv_release {s : State} (h : Inv s) {x : Sync} (hx : x ≠ .waiting) (st : Status) :
    Inv (returnHost { s with sync := x, hostop := .idle } st) := by
  obtain ⟨hv, hst, hfr, ⟨hlen, hidx, hbytes, -⟩, hrx, -, hrg, hclk⟩ := h
  exact ⟨hv, hst, hfr, ⟨hlen, hidx, hbytes, nofun⟩, hrx, ⟨nofun, fun e => absurd e hx⟩, hrg, hclk⟩

/-- During a send the protocol is not in its wait (R40 g). -/
theorem sync_of_sending {s : State} (h : Inv s) (hop : s.hostop = .sending) : s.sync ≠ .waiting := by
  obtain ⟨-, -, -, -, -, hwait, -⟩ := h
  intro e
  rw [hwait.2 e] at hop
  cases hop

theorem inv_completeSend {s : State} (h : Inv s) (hd : sendDone s) : Inv (completeSend s) := by
  refine inv_release h ?_ .ok
  split
  · nofun
  · exact sync_of_sending h hd.1

/-- Every kind of move keeps the invariant. -/
theorem inv_keptByMoves : KeptByMoves Inv where
  pending _ _ h := h
  returnHost _ _ _ h := h
  returnProducer _ _ h := h
  encode _ _ h _ _ hlen := inv_encode h hlen
  compact _ _ _ h hidle hc := inv_compact h hidle hc
  startSend _ h hidle := inv_startSend h hidle
  arm _ h hidle := inv_armReceive h hidle
  startWait _ h _ := inv_startWait h
  ringWrite _ v h hf _ := inv_ringWrite h hf v
  ringRead _ h he := inv_ringRead h he
  ringFlush _ h := inv_ringFlush h
  receive _ _ _ h hb := inv_receiveByte h hb
  lineIdle _ h _ hpos := inv_completeReceive h hpos
  emit _ b h hen := inv_emitByte h hen b
  tick _ h := inv_tick h
  completeSend _ h hd := inv_completeSend h hd
  timeoutSend _ h hd := inv_release h (sync_of_sending h hd.1) .transmitTimeout
  completeWait _ h _ := inv_release (x := .completed) h nofun .ok
  timeoutWait _ h _ := inv_release (x := .timedOut) h nofun .responseTimeout
  reset s h := inv_reset h s.pending

/-- Settles O48, move by move. -/
theorem stepKeepsTheInvariant : Obligations.StepKeepsTheInvariant := fun _ _ h e => inv_keptByMoves.step h e

/-- Settles O47: the state after reset is R46 under the default parameters, which meet the constraints of R5. -/
theorem resetStateIsGood : Obligations.ResetStateIsGood :=
  inv_resetWith (cfg := {}) (by decide) (clockSpan_pos {}) []

/-- Settles O44: the reset event leaves the state of R46, whose stores are empty, and reads nothing but the clock, the
parameters and the schedule. -/
theorem resetEventGivesTheTableOfResetValues : Obligations.ResetEventGivesTheTableOfResetValues := by
  intro s
  refine ⟨State.resetWith s.cfg s.now s.pending, rfl, fun i => ?_, rfl, rfl, rfl, rfl, rfl, rfl, rfl, rfl, rfl, rfl, rfl⟩
  exact ⟨Memory.read_nil i, Memory.read_nil i, Memory.read_nil i, Memory.read_nil i⟩

end Sys2Proof.Machine
end

section
/-! Where a step can fault: the scan of a `COMPACT` at an unwritten byte of `FRAME` (R44, U8), and in a good state
nowhere else. -/

namespace Sys2Proof.Machine

/-! ## The scan of FRAME -/

/-- A scan over written bytes without the marker faults at the unwritten byte it comes to next. -/
theorem scanFrame_of_unwritten {s : State} : ∀ {bs : List Byte} {i k : Nat}, bs.length < k →
    i + bs.length < s.cfg.frameCap → (∀ j < bs.length, s.frame.read (i + j) = bs[j]?) → Config.EOT ∉ bs →
    s.frame.read (i + bs.length) = none → scanFrame s i k = .error (.unwrittenByte .frame (i + bs.length))
  | _, _, 0, hk, _, _, _, _ => absurd hk (Nat.not_lt_zero _)
  | [], i, k + 1, _, hcap, _, _, hnone => by
    have hread : readStore .frame i s = .error (.unwrittenByte .frame i) := readStore_of_unwritten hcap hnone
    simp [scanFrame, hread]
  | b :: bs, i, k + 1, hk, hcap, hall, heot, hnone => by
    obtain ⟨hb, hbs⟩ := List.ne_and_not_mem_of_not_mem_cons heot
    have hshift : ∀ j, i + 1 + j = i + (j + 1) := fun j => by omega
    have hread : readStore .frame i s = .ok b :=
      readStore_ok.2 ⟨show i < s.cfg.frameCap by omega, by simpa using hall 0 (by simp)⟩
    have hrest : scanFrame s (i + 1) k = .error (.unwrittenByte .frame (i + 1 + bs.length)) := by
      refine scanFrame_of_unwritten (by simpa using hk) ?_ (fun j hj => ?_) hbs ?_
      · rwa [hshift]
      · rw [hshift]
        exact hall (j + 1) (by simpa using hj)
      · rwa [hshift]
    rw [scanFrame, hread]
    simp only [Ne.symm hb, if_false, hrest, hshift, List.length_cons]

/-- The compact stage faults where its scan does. -/
theorem compactFrame_of_scan_error {s : State} {f : Fault} (h : scanFrame s 0 s.cfg.frameCap = .error f) :
    compactFrame s = .error f := by
  simp [compactFrame, h]

/-- Over a `FRAME` with every byte written the compact stage answers. -/
theorem compactFrame_of_written {s : State} (h : ∀ i < s.cfg.frameCap, (s.frame.read i).isSome = true) :
    ∃ r, compactFrame s = .ok r := by
  obtain ⟨bs, hbs⟩ := readRange_total (n := .frame) (s := s) (i := 0) (k := s.cfg.frameCap) (by simp)
    (fun j hj => by simpa using h j hj)
  obtain ⟨-, hlen, hall⟩ := readRange_ok.1 hbs
  have hscan := scanFrame_of_written (s := s) (bs := bs) (i := 0) (by omega) (hlen ▸ hall)
  rw [hlen] at hscan
  exact ⟨_, compactFrame_of_scan hscan⟩

/-- Settles O18, by the scan: the bytes before the unwritten one are read and passed. -/
theorem compactFaultsAtTheFirstUnwrittenByte : Obligations.CompactFaultsAtTheFirstUnwrittenByte := by
  intro s bs hidle hlen hholds heot hnone
  have hscan : scanFrame s 0 s.cfg.frameCap = .error (.unwrittenByte .frame bs.length) := by
    simpa using scanFrame_of_unwritten (s := s) (i := 0) hlen (by omega) hholds heot (by simpa using hnone)
  simp only [exec, execCompact, hostStep_idle hidle, compactFrame_of_scan_error hscan, withValue_of_error]

/-! ## Operations that do not fault -/

/-- The encode stage leaves `FRAME` written, so the compact stage after it answers. -/
theorem compactFrame_of_encoded {c : Command} {s t : State} (h : encodeFrame c s = .next t) :
    ∃ r, compactFrame t = .ok r := by
  obtain ⟨-, hlen, rfl⟩ := encodeFrame_next.1 h
  refine compactFrame_of_written fun i hi => ?_
  rw [read_encoded, List.getElem?_eq_getElem ((frameImage_length hlen).symm ▸ hi)]
  rfl

theorem encodeOperation_no_fault {c : Command} {s : State} {f : Fault} (hv : s.cfg.Valid) :
    encodeOperation c s ≠ .fault f := by
  intro h
  obtain ⟨-, h⟩ := hostStep_fault.1 h
  obtain h | ⟨u, -, h⟩ := andThen_fault.1 h
  · exact encodeFrame_no_fault hv h
  · exact finish_not_fault h

theorem execDispatch_no_fault {c : Command} {s : State} {f : Fault} (hv : s.cfg.Valid) :
    execDispatch c s ≠ .fault f := by
  intro h
  obtain ⟨-, h⟩ := hostStep_fault.1 h
  obtain h | ⟨u, hu, h⟩ := andThen_fault.1 h
  · exact encodeFrame_no_fault hv h
  · obtain ⟨r, hr⟩ := compactFrame_of_encoded hu
    rw [hr, withValue_of_ok] at h
    split at h
    · cases h
    · exact finish_not_fault h

/-- The received bytes of a good state can all be read (R44). -/
theorem execDecode_no_fault {s : State} {f : Fault} (hrx : ReceiveGood s) : execDecode s ≠ .fault f := by
  obtain ⟨hlen, -, hall, -⟩ := hrx
  intro h
  obtain ⟨-, h⟩ := hostStep_fault.1 h
  obtain ⟨bs, hbs⟩ := readRange_total (n := .rxbuf) (s := s) (i := 0) (k := s.rxLen) (by simpa using hlen)
    (fun j hj => by simpa using hall j hj)
  rw [hbs, withValue_of_ok] at h
  cases h

theorem ringWrite_no_fault {port : Port} {v : Byte} {s : State} {f : Fault} (hh : s.head < s.cfg.ringCap) :
    ringWrite port v s ≠ .fault f := by
  intro h
  unfold ringWrite at h
  split at h
  · cases h
  · obtain ⟨t, ht⟩ := writeStore_of_lt (n := .ring) (s := s) hh v
    rw [ht, withValue_of_ok] at h
    cases h

/-- The slot `TAIL` names has been written while the ring of a good state is not empty (R44). -/
theorem execRbRead_no_fault {s : State} {f : Fault} (hrg : RingGood s) : execRbRead s ≠ .fault f := by
  obtain ⟨hh, ht, hall⟩ := hrg
  intro h
  obtain ⟨-, h⟩ := hostStep_fault.1 h
  split at h
  · exact finish_not_fault h
  · next hne =>
    have hslot := hall 0 (ringUsed_pos hh ht hne)
    rw [Nat.add_zero, Nat.mod_eq_of_lt ht] at hslot
    obtain ⟨b, hb⟩ := readStore_of_written (n := .ring) ht hslot
    rw [hb, withValue_of_ok] at h
    exact finish_not_fault h

/-- A live receive of a good state has room for a byte (R40 d). -/
theorem receiveByte_total {s : State} (hrx : ReceiveGood s) (b : Byte) : ∃ t, receiveByte b s = .ok t := by
  obtain ⟨-, hroom, -⟩ := hrx
  cases harmed : s.rxArmed
  · exact ⟨s, receiveByte_ok.2 (.inl ⟨harmed, rfl⟩)⟩
  · exact ⟨_, receiveByte_ok.2 (.inr ⟨harmed, hroom harmed, rfl⟩)⟩

theorem receiveBytes_total : ∀ {bs : List Byte} {s : State}, Inv s → ∃ t, receiveBytes bs s = .next t
  | [], s, _ => ⟨s, rfl⟩
  | b :: bs, s, h => by
    have ⟨_, _, _, _, hrx, _⟩ := h
    obtain ⟨u, hu⟩ := receiveByte_total hrx b
    rw [receiveBytes_cons, eventRx, hu, withValue_of_ok, andThen_of_next]
    exact receiveBytes_total (inv_receiveByte h hu)

theorem receiveBytes_no_fault {bs : List Byte} {s : State} {f : Fault} (h : Inv s) : receiveBytes bs s ≠ .fault f := by
  obtain ⟨t, ht⟩ := receiveBytes_total (bs := bs) h
  rw [ht]
  nofun

/-! ## The one fault of a good state -/

/-- `COMPACT` faults in a good state only at byte 0 of a `FRAME` that nothing has encoded into. -/
theorem execCompact_fault {s : State} {f : Fault} (h : Inv s) (e : execCompact s = .fault f) :
    f = .unwrittenByte .frame 0 ∧ s.frame = [] := by
  obtain ⟨hv, -, hfr, -⟩ := h
  obtain ⟨hidle, hk⟩ := hostStep_fault.1 e
  obtain hempty | hall := hfr
  · have hfault : execCompact s = .fault (.unwrittenByte .frame 0) :=
      compactFaultsAtTheFirstUnwrittenByte s [] hidle (frameCap_pos_of_valid hv) (fun i hi => absurd hi (Nat.not_lt_zero i)) List.not_mem_nil
        (by rw [hempty]; rfl)
    rw [hfault] at e
    cases e
    exact ⟨rfl, hempty⟩
  · obtain ⟨r, hr⟩ := compactFrame_of_written hall
    rw [hr, withValue_of_ok] at hk
    exact absurd hk finish_not_fault

/-- In a good state the only instruction that faults is a `COMPACT` before any encode. -/
theorem exec_fault {i : Instr} {s : State} {f : Fault} (h : Inv s) (e : exec i s = .fault f) :
    i = .compact ∧ f = .unwrittenByte .frame 0 ∧ s.frame = [] := by
  have ⟨hv, _, _, _, hrx, _, hrg, _⟩ := h
  cases i <;> simp only [exec] at e
  case compact => exact ⟨rfl, execCompact_fault h e⟩
  case encRss | encWss | encRsb | encWsb => exact absurd e (encodeOperation_no_fault hv)
  case send | rxWait =>
    obtain ⟨-, e⟩ := hostStep_fault.1 e
    cases e
  case dispatch => exact absurd e (execDispatch_no_fault hv)
  case rxArm | rbFlush => exact absurd (hostStep_fault.1 e).2 finish_not_fault
  case decodeOp => exact absurd e (execDecode_no_fault hrx)
  case rbWrite port v =>
    cases port
    · exact absurd (hostStep_fault.1 e).2 (ringWrite_no_fault hrg.1)
    · exact absurd e (ringWrite_no_fault hrg.1)
  case rbRead => exact absurd e (execRbRead_no_fault hrg)
  all_goals exact absurd e (receiveBytes_no_fault h)

/-- The byte `!TXACC` emits from a good state has been written (R40 e, f). -/
theorem eventTxAccept_no_fault {s : State} {f : Fault} (htx : TransmitGood s) : eventTxAccept s ≠ .fault f := by
  obtain ⟨hlen, -, hbytes, -⟩ := htx
  intro h
  unfold eventTxAccept at h
  split at h
  · next hen =>
    obtain ⟨-, hlt⟩ := hen
    obtain ⟨hall, -⟩ := hbytes (Nat.zero_lt_of_lt hlt)
    have hread : (s.txbuf.read s.txIdx).isSome = true := Option.isSome_of_any (hall s.txIdx hlt)
    obtain ⟨b, hb⟩ := readStore_of_written (n := .txbuf) (s := s) (show s.txIdx < s.cfg.frameCap + 1 by omega) hread
    rw [hb, withValue_of_ok] at h
    cases h
  · cases h

theorem eventHostPoll_no_fault {s : State} {f : Fault} : eventHostPoll s ≠ .fault f := by
  intro h
  unfold eventHostPoll at h
  split at h
  · cases h
  all_goals
    split at h
    · cases h
    · split at h <;> cases h

/-- No event faults in a good state. -/
theorem runEvent_no_fault {ev : Event} {s : State} {f : Fault} (h : Inv s) : runEvent ev s ≠ .fault f := by
  obtain ⟨-, -, -, htx, hrx, -⟩ := h
  intro e
  cases ev <;> simp only [runEvent] at e
  case txAccept => exact eventTxAccept_no_fault htx e
  case rx b =>
    obtain ⟨t, ht⟩ := receiveByte_total hrx b
    rw [eventRx, ht, withValue_of_ok] at e
    cases e
  case idle =>
    unfold eventIdle at e
    split at e <;> cases e
  case tick | reset => cases e
  case hostPoll => exact eventHostPoll_no_fault e

/-- Settles O50, by the kind of step: taking an entry of the schedule leaves a good state good, and of all that can run
on it only `COMPACT` faults. -/
theorem onlyCompactBeforeEncodeFaults : Obligations.OnlyCompactBeforeEncodeFaults := by
  intro s f h e
  have hrest : ∀ rest, Inv (s.withPending rest) := fun rest => inv_keptByMoves.pending s rest h
  obtain ⟨-, hs⟩ | ⟨ev, rest, -, hs⟩ | ⟨i, rest, hi, hs⟩ | ⟨bs, rest, hs⟩ | ⟨r, hs⟩ := step_kinds s <;> rw [hs] at e
  case inl => cases e
  case inr.inl => exact absurd e (runEvent_no_fault (hrest rest))
  case inr.inr.inl =>
    obtain ⟨rfl, hf, hempty⟩ := exec_fault (hrest rest) e
    exact ⟨hf, hempty, hi⟩
  case inr.inr.inr.inl => exact absurd e (receiveBytes_no_fault (hrest rest))
  case inr.inr.inr.inr => cases e

end Sys2Proof.Machine
end

section
/-! The byte stores under a step: their canonical form and index spaces kept by every move, and the compacted frame of a
send in progress, which nothing but the reset changes and whose bytes `!TXACC` emits in order. -/

namespace Sys2Proof.Machine

/-! ## Canonical form and index spaces (R60, R65) -/

/-- The encode stage leaves `FRAME` as one image of its whole index space. -/
theorem storesGood_encode {s : State} {c : Command} (h : StoresGood s)
    (hlen : (requestView s.cfg c).length ≤ s.cfg.frameCap) :
    StoresGood { s with frame := Memory.ofBytes 0 (frameImage s.cfg c) } := by
  obtain ⟨-, htxbuf, hrxbuf, hring⟩ := h
  have hfits : 0 + (frameImage s.cfg c).length ≤ s.cfg.frameCap := by rw [frameImage_length hlen, Nat.zero_add]
  exact ⟨⟨Memory.wf_ofBytes 0 _, Memory.within_ofBytes _ 0 hfits⟩, htxbuf, hrxbuf, hring⟩

/-- A byte sequence written from index 0 of `TXBUF` that has room there. -/
theorem storesGood_writeTxbuf {s : State} (h : StoresGood s) (bs : List Byte) (hfits : bs.length ≤ s.cfg.frameCap + 1)
    (n : Nat) : StoresGood { s with txbuf := s.txbuf.writeBytes 0 bs, txLen := n } := by
  obtain ⟨hframe, ⟨hwf, hwithin⟩, hrxbuf, hring⟩ := h
  have hend : 0 + bs.length ≤ s.cfg.frameCap + 1 := by omega
  exact ⟨hframe, ⟨Memory.wf_writeBytes bs 0 hwf, Memory.within_writeBytes bs 0 hend hwithin⟩, hrxbuf, hring⟩

/-- The compact stage copies at most `FRAME_CAP` bytes, so that the terminator after them has the one byte by which
`TXBUF` is longer (R24). -/
theorem storesGood_compact {s t : State} {st : Status} (h : StoresGood s) (hc : compactFrame s = .ok (t, st)) :
    StoresGood t := by
  obtain ⟨out, found, hs, hcases⟩ := compactFrame_ok hc
  have hlen := (scanFrame_ok hs).1
  obtain ⟨-, -, rfl⟩ | ⟨-, -, rfl⟩ := hcases
  · exact storesGood_writeTxbuf h _ (by rw [List.length_append, List.length_singleton]; omega) _
  · exact storesGood_writeTxbuf h out (by omega) 0

theorem storesGood_ringWrite {s : State} (h : StoresGood s) (hlt : s.head < s.cfg.ringCap) (v : Byte) (n : Nat) :
    StoresGood { s with ring := s.ring.write s.head v, head := n } := by
  obtain ⟨hframe, htxbuf, hrxbuf, hwf, hwithin⟩ := h
  exact ⟨hframe, htxbuf, hrxbuf, Memory.wf_write hwf s.head v, Memory.within_write v hlt hwithin⟩

theorem storesGood_receiveByte {b : Byte} {s t : State} (h : StoresGood s) (hb : receiveByte b s = .ok t) :
    StoresGood t := by
  obtain ⟨-, rfl⟩ | ⟨-, hlt, rfl⟩ := receiveByte_ok.1 hb
  · exact h
  · obtain ⟨hframe, htxbuf, ⟨hwf, hwithin⟩, hring⟩ := h
    rw [countReceived_eq]
    exact ⟨hframe, htxbuf, ⟨Memory.wf_write hwf s.rxLen b, Memory.within_write b hlt hwithin⟩, hring⟩

/-- Every kind of move keeps the stores good: four of them write a store, and the reset empties all. -/
theorem storesGood_keptByMoves : KeptByMoves StoresGood where
  pending _ _ h := h
  returnHost _ _ _ h := h
  returnProducer _ _ h := h
  encode _ _ h _ _ hlen := storesGood_encode h hlen
  compact _ _ _ h _ hc := storesGood_compact h hc
  startSend _ h _ := h
  arm _ h _ := h
  startWait _ h _ := h
  ringWrite s v h _ hlt := storesGood_ringWrite h hlt v (nextSlot s.cfg s.head)
  ringRead _ h _ := h
  ringFlush _ h := h
  receive _ _ _ h hb := storesGood_receiveByte h hb
  lineIdle _ h _ _ := h
  emit _ _ h _ := h
  tick _ h := h
  completeSend _ h _ := h
  timeoutSend _ h _ := h
  completeWait _ h _ := h
  timeoutWait _ h _ := h
  reset _ _ := ⟨⟨rfl, rfl⟩, ⟨rfl, rfl⟩, ⟨rfl, rfl⟩, ⟨rfl, rfl⟩⟩

/-- Settles O49, move by move. -/
theorem stepKeepsTheStoresCanonical : Obligations.StepKeepsTheStoresCanonical :=
  fun _ _ h e => storesGood_keptByMoves.step h e

/-! ## The compacted frame of a send in progress (R69) -/

/-- Two states hold the same compacted frame. -/
def SameCompactedFrame (s t : State) : Prop := t.txbuf = s.txbuf ∧ t.txLen = s.txLen

theorem SameCompactedFrame.refl (s : State) : SameCompactedFrame s s := ⟨rfl, rfl⟩

theorem SameCompactedFrame.trans {s t u : State} (h : SameCompactedFrame s t) (h' : SameCompactedFrame t u) :
    SameCompactedFrame s u := ⟨h'.1.trans h.1, h'.2.trans h.2⟩

theorem receiveByte_sameCompactedFrame {b : Byte} {s t : State} (h : receiveByte b s = .ok t) :
    SameCompactedFrame s t := by
  rw [receiveByte_frame h]
  exact .refl s

theorem receiveBytes_sameCompactedFrame {bs : List Byte} {s t : State} (h : receiveBytes bs s = .next t) :
    SameCompactedFrame s t :=
  receiveBytes_keeps (P := SameCompactedFrame s) (fun hs hb => hs.trans (receiveByte_sameCompactedFrame hb)) (.refl s) h

theorem ringWrite_sameCompactedFrame {port : Port} {v : Byte} {s t : State} (h : ringWrite port v s = .next t) :
    SameCompactedFrame s t := by
  obtain ⟨-, rfl⟩ | ⟨-, -, rfl⟩ := ringWrite_next.1 h <;> cases port <;> exact .refl s

/-- While the HOST is blocked no instruction touches the compacted frame: its own operations are refused, and the
others write the ring or the receive side. -/
theorem exec_sameCompactedFrame {i : Instr} {s t : State} (hbusy : s.hostop ≠ .idle) (h : exec i s = .next t) :
    SameCompactedFrame s t := by
  cases hi : isHostOperation i
  case true =>
    obtain ⟨k, hk⟩ := exec_of_hostOperation hi
    rw [hk, hostStep_blocked hbusy] at h
    cases h
  case false =>
    obtain ⟨v, rfl⟩ | ⟨bs, hbs⟩ := exec_of_not_hostOperation hi
    · exact ringWrite_sameCompactedFrame h
    · rw [hbs] at h
      exact receiveBytes_sameCompactedFrame h

theorem eventHostPoll_sameCompactedFrame {s t : State} (h : eventHostPoll s = .next t) : SameCompactedFrame s t := by
  unfold eventHostPoll at h
  split at h
  · cases h
  all_goals
    split at h
    · cases h; exact .refl s
    · split at h <;> cases h <;> exact .refl s

/-- Of the events only the reset touches the compacted frame. -/
theorem runEvent_sameCompactedFrame {e : Event} {s t : State} (hreset : e ≠ .reset) (h : runEvent e s = .next t) :
    SameCompactedFrame s t := by
  cases e
  case txAccept =>
    obtain ⟨-, b, -, rfl⟩ := eventTxAccept_next h
    exact .refl s
  case rx b =>
    obtain ⟨u, hu, h⟩ := withValue_next.1 h
    cases h
    exact receiveByte_sameCompactedFrame hu
  case idle =>
    simp only [runEvent, eventIdle] at h
    split at h <;> cases h <;> exact .refl s
  case tick => cases h; exact .refl s
  case hostPoll => exact eventHostPoll_sameCompactedFrame h
  case reset => exact absurd rfl hreset

/-- Settles O56, by the kind of step: the HOST's writers of `TXBUF` are blocked by the send itself (R35). -/
theorem compactedFrameIsStableWhileSending : Obligations.CompactedFrameIsStableWhileSending := by
  intro s t hop e hreset
  have hbusy : s.hostop ≠ .idle := by rw [hop]; nofun
  obtain ⟨-, hs⟩ | ⟨ev, rest, hev, hs⟩ | ⟨i, rest, -, hs⟩ | ⟨bs, rest, hs⟩ | ⟨r, hs⟩ := step_kinds s <;> rw [hs] at e
  case inl => cases e; exact ⟨rfl, rfl⟩
  case inr.inl =>
    have hne : ev ≠ .reset := fun he => hreset (he ▸ hev)
    exact runEvent_sameCompactedFrame (s := s.withPending rest) hne e
  case inr.inr.inl => exact exec_sameCompactedFrame (s := s.withPending rest) hbusy e
  case inr.inr.inr.inl => exact receiveBytes_sameCompactedFrame (s := s.withPending rest) e
  case inr.inr.inr.inr => cases e

/-! ## The bytes of a send (R178) -/

/-- An enabled `!TXACC` emits the byte at `TX_IDX`. -/
theorem eventTxAccept_of_enabled {s : State} {b : Byte} (hen : txAcceptEnabled s) (hlen : s.txLen ≤ s.cfg.frameCap)
    (hb : s.txbuf.read s.txIdx = some b) : eventTxAccept s = .next (emitByte b s) := by
  have ⟨_, hlt⟩ := hen
  have hread : readStore .txbuf s.txIdx s = .ok b :=
    readStore_ok.2 ⟨show s.txIdx < s.cfg.frameCap + 1 by omega, hb⟩
  rw [eventTxAccept, if_pos hen, hread, withValue_of_ok]

/-- Where `!TXACC` is not enabled it is refused (log entry 12). -/
theorem eventTxAccept_of_not_enabled {s : State} (h : ¬ txAcceptEnabled s) :
    eventTxAccept s = .refused .stepNotEnabled := if_neg h

theorem Memory.holds_cons {m : Memory} {a : Nat} {b : Byte} {bs : List Byte} (h : m.holds a (b :: bs)) :
    m.read a = some b ∧ m.holds (a + 1) bs := by
  refine ⟨by simpa using h 0 (by simp), fun i hi => ?_⟩
  rw [show a + 1 + i = a + (i + 1) by omega]
  exact h (i + 1) (by simpa using hi)

/-- As many acceptances as there are bytes from `TX_IDX` on emit those bytes in order. -/
theorem runEvents_txAccept : ∀ {bs : List Byte} {s : State}, s.hostop = .sending → s.txIdx + bs.length ≤ s.txLen →
    s.txLen ≤ s.cfg.frameCap → s.txbuf.holds s.txIdx bs →
    runEvents (List.replicate bs.length .txAccept) s =
      .next { s with txTrace := s.txTrace ++ bs, txIdx := s.txIdx + bs.length }
  | [], s, _, _, _, _ => by rw [List.append_nil]; rfl
  | b :: bs, s, hop, hroom, hlen, hholds => by
    rw [List.length_cons] at hroom
    obtain ⟨hb, hbs⟩ := Memory.holds_cons hholds
    have hemit : runEvent .txAccept s = .next (emitByte b s) :=
      eventTxAccept_of_enabled ⟨hop, by omega⟩ hlen hb
    have hrest := runEvents_txAccept (bs := bs) (s := emitByte b s) hop
      (show s.txIdx + 1 + bs.length ≤ s.txLen by omega) hlen hbs
    rw [List.length_cons, List.replicate_succ, runEvents, hemit, andThen_of_next, hrest]
    simp only [emitByte, List.append_assoc, List.singleton_append, Nat.add_assoc, Nat.add_comm 1]

/-- Settles O24: the acceptances emit the whole frame, and leave `TX_IDX` at `TX_LEN`, where `!TXACC` is not enabled. -/
theorem acceptedTransmissionEmitsTheCompactedFrame : Obligations.AcceptedTransmissionEmitsTheCompactedFrame := by
  intro s bs hop hidx hlen hcap hholds
  have hrun := runEvents_txAccept (bs := bs) (s := s) hop (by omega) (by omega) (by rwa [hidx])
  rw [hidx, Nat.zero_add] at hrun
  refine ⟨_, hrun, rfl, eventTxAccept_of_not_enabled fun hen => ?_⟩
  obtain ⟨-, hlt⟩ := hen
  simp only [hlen, Nat.lt_irrefl] at hlt

end Sys2Proof.Machine
end

section
/-! The encodings of 30_encoding.md: the two field transforms and their inverses, the codes and letters of a descriptor,
and each part of a request or response read back from its own encoding, up to decode of encode for every instruction. -/

namespace Sys2Proof

/-! ## Nibble characters (R94 to R96) -/

/-- A nibble and the code of '0' add without carry. -/
theorem nibChar_toNat (n : BitVec 4) : (nibChar n).toNat = 0x30 + n.toNat := by
  have hsum : (nibChar n).toNat = (n.toNat % 256 + 0x30) % 256 := by
    rw [nibChar, BitVec.toNat_add, BitVec.toNat_setWidth]; rfl
  omega

theorem nibChar_high_toNat (v : Byte) : (nibChar (v.extractLsb' 4 4)).toNat = 0x30 + v.toNat / 16 := by
  rw [nibChar_toNat, BitVec.extractLsb'_toNat, Nat.shiftRight_eq_div_pow]
  omega

theorem nibChar_low_toNat (v : Byte) : (nibChar (v.extractLsb' 0 4)).toNat = 0x30 + v.toNat % 16 := by
  rw [nibChar_toNat, BitVec.extractLsb'_toNat, Nat.shiftRight_zero]

theorem isNibChar_iff {c : Byte} : isNibChar c = true ↔ 0x30 ≤ c.toNat ∧ c.toNat ≤ 0x3F := by
  rw [isNibChar, Bool.and_eq_true, decide_eq_true_iff, decide_eq_true_iff]
  exact Iff.rfl

theorem unnib_of_isNibChar {c1 c0 : Byte} (h1 : isNibChar c1 = true) (h0 : isNibChar c0 = true) :
    unnib c1 c0 = some (BitVec.ofNat 8 ((c1.toNat - 0x30) * 16 + (c0.toNat - 0x30))) := by
  rw [unnib, h1, h0, Bool.and_self, if_pos rfl, Config.charZero]
  rw [isNibChar_iff] at h1 h0
  congr 1
  bv_omega

theorem unnib_of_not_isNibChar {c1 c0 : Byte} (h : ¬ (isNibChar c1 = true ∧ isNibChar c0 = true)) :
    unnib c1 c0 = none := by
  rw [unnib, if_neg (by rwa [Bool.and_eq_true])]

/-- Both characters of `nib` are in the domain of `unnib`, and the two halves put together are the byte. -/
@[simp] theorem unnib_nib (v : Byte) :
    unnib (nibChar (v.extractLsb' 4 4)) (nibChar (v.extractLsb' 0 4)) = some v := by
  have hhigh := nibChar_high_toNat v
  have hlow := nibChar_low_toNat v
  rw [unnib_of_isNibChar (isNibChar_iff.2 (by omega)) (isNibChar_iff.2 (by omega)), hhigh, hlow]
  congr 1
  bv_omega

/-! ## The '0'-shift (R97, R98) -/

theorem shift0_toNat (b : Byte) : (shift0 b).toNat = (b.toNat + 0x30) % 256 := BitVec.toNat_add b Config.charZero

theorem unshift0_toNat (c : Byte) : ((unshift0 c).toNat : Int) = ((c.toNat : Int) - 0x30) % 256 := by
  have hsub : (unshift0 c).toNat = (256 - 0x30 + c.toNat) % 256 := BitVec.toNat_sub c Config.charZero
  omega

@[simp] theorem unshift0_shift0 (b : Byte) : unshift0 (shift0 b) = b := BitVec.add_sub_cancel b _

theorem shift0_unshift0 (c : Byte) : shift0 (unshift0 c) = c := BitVec.sub_add_cancel c _

/-- A payload survives the line: every byte, whatever its '0'-shift wraps to, comes back. -/
@[simp] theorem map_unshift0_payloadText (data : List Byte) : (payloadText data).map unshift0 = data := by
  have hinv : unshift0 ∘ shift0 = id := funext unshift0_shift0
  rw [payloadText, List.map_map, hinv, List.map_id]

/-! ## Codes and letters (R99, R108) -/

@[simp] theorem deviceOfCode_deviceCode (dev : DeviceType) : deviceOfCode (deviceCode dev) = .ok dev := by
  cases dev <;> rfl

@[simp] theorem sizeOfCode_sizeCode (size : SizeMark) : sizeOfCode (sizeCode size) = .ok size := by
  cases size <;> rfl

@[simp] theorem letterDev_devLetter (dev : DeviceType) : letterDev (devLetter dev) = some dev := by
  cases dev <;> rfl

@[simp] theorem letterSize_sizeLetter (size : SizeMark) : letterSize (sizeLetter size) = some size := by
  cases size <;> rfl

/-- A device code below 12 names a device. -/
theorem deviceOfCode_of_legal {c : BitVec 4} (h : c.toNat < 12) : ∃ dev, deviceOfCode c = .ok dev := by
  have hsome : ∀ c : BitVec 4, c.toNat < 12 → (deviceOfCode c).toOption.isSome = true := by decide
  have hc := hsome c h
  cases hdev : deviceOfCode c with
  | ok dev => exact ⟨dev, rfl⟩
  | error e => rw [hdev] at hc; cases hc

theorem deviceOfCode_of_reserved : ∀ {c : BitVec 4}, 12 ≤ c.toNat → deviceOfCode c = .error .reservedDevice := by
  decide

theorem sizeOfCode_of_reserved : ∀ {c : BitVec 3}, 5 ≤ c.toNat → sizeOfCode c = .error .reservedSize := by
  decide

/-! ## The transforms and the codes: what 30_encoding.md says of them -/

/-- Settles O1: neither half carries over the code of '0'. -/
theorem nibbleCharactersAreHalvesPlusZero : Obligations.NibbleCharactersAreHalvesPlusZero := by
  intro v
  have hhigh : nibChar (v.extractLsb' 4 4) = BitVec.ofNat 8 (0x30 + v.toNat / 16) := by
    rw [← nibChar_high_toNat, BitVec.ofNat_toNat, BitVec.setWidth_eq]
  have hlow : nibChar (v.extractLsb' 0 4) = BitVec.ofNat 8 (0x30 + v.toNat % 16) := by
    rw [← nibChar_low_toNat, BitVec.ofNat_toNat, BitVec.setWidth_eq]
  rw [nib, hhigh, hlow]

/-- Settles O2: the image of `nib`, the domain of `unnib` and its complement. -/
theorem unnibInvertsNibAndRejectsOtherCharacters : Obligations.UnnibInvertsNibAndRejectsOtherCharacters := by
  refine ⟨fun v c1 c0 h => ?image, fun c1 c0 ⟨h1, h1', h0, h0'⟩ => ?domain, fun c1 c0 h => ?outside⟩
  case image =>
    cases h
    exact unnib_nib v
  case domain => exact unnib_of_isNibChar (isNibChar_iff.2 ⟨h1, h1'⟩) (isNibChar_iff.2 ⟨h0, h0'⟩)
  case outside =>
    apply unnib_of_not_isNibChar
    rw [isNibChar_iff, isNibChar_iff]
    omega

/-- Settles O3: the shift and its inverse are addition and subtraction of the code of '0', modulo 256. -/
theorem zeroShiftWrapsAndIsInverted : Obligations.ZeroShiftWrapsAndIsInverted := by
  have hbij : Function.Bijective shift0 :=
    Function.bijective_iff_has_inverse.2 ⟨unshift0, unshift0_shift0, shift0_unshift0⟩
  have hdigit (b : Byte) : (0x30 ≤ (shift0 b).toNat ∧ (shift0 b).toNat ≤ 0x39) ↔ b.toNat ≤ 9 := by
    rw [shift0_toNat]
    have := b.isLt
    omega
  exact ⟨shift0_toNat, hbij, hdigit, rfl, rfl, unshift0_toNat, unshift0_shift0⟩

/-- Settles O4: the two tables row by row, and the codes past their ends. -/
theorem deviceAndSizeCodesHaveTheirLetters : Obligations.DeviceAndSizeCodesHaveTheirLetters :=
  ⟨rfl, fun _ => deviceOfCode_of_reserved, rfl, fun _ => sizeOfCode_of_reserved⟩

/-! ## The command port (R120, R121) -/

@[simp] theorem recordOf_op (op : BitVec 4) (kind : BitVec 2) (c : Command) : (recordOf op kind c).op = op := rfl

@[simp] theorem recordOf_data (op : BitVec 4) (kind : BitVec 2) (c : Command) :
    (recordOf op kind c).data = c.payload := rfl

/-- The record of an operation gives its descriptor back, whatever its operation code and kind tag. -/
@[simp] theorem descriptorOf_recordOf (op : BitVec 4) (kind : BitVec 2) (c : Command) :
    descriptorOf (recordOf op kind c) = .ok c.desc := by
  rw [descriptorOf, recordOf, deviceOfCode_deviceCode, sizeOfCode_sizeCode]; rfl

/-- The kind tag tells the four requests apart (R121). -/
@[simp] theorem commandOf_recordOf (op : BitVec 4) (c : Command) : commandOf (recordOf op (kindCode c) c) = .ok c := by
  rw [commandOf, descriptorOf_recordOf]
  cases c <;> rfl

/-! ## Request frames (R104) -/

theorem nameLength_toNat {d : Descriptor} (h : d.addr.length + 3 ≤ 255) :
    (nameLength d).toNat = d.addr.length + 3 := by
  rw [nameLength, BitVec.toNat_ofNat]
  omega

/-- The name field ends where its length says, so what follows it is left over. -/
theorem readName_nameText {d : Descriptor} (h : d.addr.length + 3 ≤ 255) (tail : List Byte) :
    readName (nameLength d) (nameText d ++ tail) = some (d.dev, d.size, d.addr, tail) := by
  have hlen : (nameLength d).toNat - 3 = d.addr.length := by rw [nameLength_toNat h]; omega
  have hmin : 3 ≤ (nameLength d).toNat := by rw [nameLength_toNat h]; omega
  simp [nameText, readName, hlen, hmin]

theorem readPayload_payloadText (data : List Byte) : readPayload (payloadText data ++ [Config.EOT]) = some data := by
  simp [readPayload]

/-- The fields of an individual request up to its payload. -/
theorem readIndividual_wire {d : Descriptor} (h : d.addr.length + 3 ≤ 255) (write : Bool) (tail : List Byte) :
    readIndividual write d.station (nib d.count ++ (nib (nameLength d) ++ (nameText d ++ tail))) =
      if write then (readPayload tail).map fun data => .reqWss d data
      else if tail = [Config.EOT] then some (.reqRss d) else none := by
  simp only [nib, List.cons_append, List.nil_append, readIndividual, unnib_nib, readName_nameText h]

/-- The fields of a continuous request up to its payload. -/
theorem readContinuous_wire {d : Descriptor} (h : d.addr.length + 3 ≤ 255) (write : Bool) (tail : List Byte) :
    readContinuous write d.station (nib (nameLength d) ++ (nameText d ++ (nib d.count ++ tail))) =
      if write then (readPayload tail).map fun data => .reqWsb d data
      else if tail = [Config.EOT] then some (.reqRsb d) else none := by
  simp only [nib, List.cons_append, List.nil_append, readContinuous, unnib_nib, readName_nameText h]

/-- A frame that begins with ENQ is read as a request. -/
theorem decodeLine_headText (cmd t1 : Byte) (d : Descriptor) (rest : List Byte) {i : Instr}
    (h : readRequest (nib d.station ++ [cmd, Config.charS, t1] ++ rest) = some i) :
    decodeLine (headText cmd t1 d ++ rest) = .ok i := by
  simp only [nib, List.cons_append, List.nil_append] at h
  simp only [headText, nib, List.cons_append, List.nil_append, decodeLine, if_true, h]

/-- The command type "SS" makes an individual request, the command letter tells a write from a read. -/
theorem decodeLine_individual {cmd : Byte} (hcmd : cmd = Config.charR ∨ cmd = Config.charW) {d : Descriptor}
    {rest : List Byte} {i : Instr} (h : readIndividual (cmd = Config.charW) d.station rest = some i) :
    decodeLine (headText cmd Config.charS d ++ rest) = .ok i := by
  apply decodeLine_headText
  simp only [nib, List.cons_append, List.nil_append, readRequest, unnib_nib, hcmd, and_self, if_true, h]

/-- The command type "SB" makes a continuous request. -/
theorem decodeLine_continuous {cmd : Byte} (hcmd : cmd = Config.charR ∨ cmd = Config.charW) {d : Descriptor}
    {rest : List Byte} {i : Instr} (h : readContinuous (cmd = Config.charW) d.station rest = some i) :
    decodeLine (headText cmd Config.charB d ++ rest) = .ok i := by
  have hne : ¬ Config.charB = Config.charS := by decide
  apply decodeLine_headText
  simp only [nib, List.cons_append, List.nil_append, readRequest, unnib_nib, hcmd, and_self, if_true, if_neg hne, h]

/-- The row of the table that is the wire form of a request. -/
def wireInstr : Command → Instr
  | .rss d => .reqRss d
  | .wss d data => .reqWss d data
  | .rsb d => .reqRsb d
  | .wsb d data => .reqWsb d data

/-- A request frame is its request wherever the name length is one byte; whether its operands are legitimate (R93) does
not matter, since the terminator is the last byte of the frame and is not found by scanning for EOT. -/
theorem decode_encode_wireInstr {c : Command} (h : c.wireFits) : decode (encode (wireInstr c)) = .ok (wireInstr c) := by
  have hread : ¬ Config.charR = Config.charW := by decide
  cases c <;> simp only [wireInstr, encode, decode, wireRequest, List.append_assoc]
  case rss d =>
    apply decodeLine_individual (.inl rfl)
    rw [readIndividual_wire (d := d) h, decide_eq_false hread]; rfl
  case wss d data =>
    apply decodeLine_individual (.inr rfl)
    rw [readIndividual_wire (d := d) h, readPayload_payloadText, decide_eq_true rfl]; rfl
  case rsb d =>
    apply decodeLine_continuous (.inl rfl)
    rw [readContinuous_wire (d := d) h, decide_eq_false hread]; rfl
  case wsb d data =>
    apply decodeLine_continuous (.inr rfl)
    rw [readContinuous_wire (d := d) h, readPayload_payloadText, decide_eq_true rfl]; rfl

/-! ## Response frames (R105, R106) -/

@[simp] theorem readTerm_termByte (t : Terminator) : readTerm (termByte t) = some t := by cases t <;> rfl

/-- A success response is its fields wherever the data-byte count is one byte: the count locates the terminator. -/
theorem decodeLine_wireAck {f : AckFrame} (h : f.data.length ≤ 255) : decodeLine (wireAck f) = .ok (.respAck f) := by
  have hcount : (BitVec.ofNat 8 f.data.length).toNat = f.data.length := by rw [BitVec.toNat_ofNat]; omega
  have hdata : (payloadText f.data ++ [termByte f.term]).take f.data.length = payloadText f.data :=
    List.take_left' (Machine.payloadText_length f.data)
  have hterm : (payloadText f.data ++ [termByte f.term]).drop f.data.length = [termByte f.term] :=
    List.drop_left' (Machine.payloadText_length f.data)
  have hne : ¬ Config.ACK = Config.ENQ := by decide
  simp only [wireAck, nib, List.cons_append, List.nil_append, decodeLine, if_neg hne, if_true, readAck, unnib_nib,
    hcount, hdata, hterm, readTerm_termByte, map_unshift0_payloadText, Option.map_some]

theorem decodeLine_wireNak (f : NakFrame) : decodeLine (wireNak f) = .ok (.respNak f) := by
  have hne : ¬ Config.NAK = Config.ENQ := by decide
  have hne' : ¬ Config.NAK = Config.ACK := by decide
  simp only [wireNak, nib, List.cons_append, List.nil_append, decodeLine, if_neg hne, if_neg hne', if_true, readNak,
    unnib_nib]

/-! ## Every instruction -/

/-- Settles O7, by the row: an operation through its record at the command port, a frame through its fields on the line,
a control code through its byte. -/
theorem decodingAnEncodedInstructionGivesItBack : Obligations.DecodingAnEncodedInstructionGivesItBack := by
  intro cfg i hwf
  cases i
  case encRss | encWss | encRsb | encWsb =>
    simp only [encode, decode, decodeCommand, recordOf_op, recordOf_data, descriptorOf_recordOf]
    rfl
  case dispatch c =>
    simp only [encode, decode, decodeCommand, recordOf_op, commandOf_recordOf]
    rfl
  case rbWrite port v => cases port <;> rfl
  case compact | send | rxArm | rxWait | decodeOp | rbRead | rbFlush => rfl
  case reqRss d => exact decode_encode_wireInstr (c := .rss d) hwf.1
  case reqWss d data => exact decode_encode_wireInstr (c := .wss d data) hwf.1
  case reqRsb d => exact decode_encode_wireInstr (c := .rsb d) hwf.1
  case reqWsb d data => exact decode_encode_wireInstr (c := .wsb d data) hwf.1
  case respAck f => exact decodeLine_wireAck hwf
  case respNak f => exact decodeLine_wireNak f
  case ctlEnq | ctlAck | ctlNak | ctlEot | ctlEtx => rfl

/-- Settles O6: the decoder evaluated on each word. -/
theorem sampleWordsDecode : Obligations.SampleWordsDecode := ⟨rfl, rfl, rfl, rfl, rfl, rfl, rfl⟩

end Sys2Proof
end

section
/-! What a request that is refused by name does, the bytes of a control code, and the script of `TRANSACT`. -/

namespace Sys2Proof.Machine

/-! ## Reserved codes (R127, R120) -/

theorem decodeCommand_of_reservedOperation {r : CommandRecord} (h : 13 ≤ r.op.toNat) :
    decodeCommand r = .error .reservedOperation := by
  unfold decodeCommand
  split
  case h_14 => rfl
  all_goals omega

/-- An operation with a descriptor is rejected as its descriptor is. -/
theorem decodeCommand_of_descriptorOf {r : CommandRecord} {e : DecodeError} (hop : r.op.toNat ∈ [0, 1, 2, 3, 6])
    (h : descriptorOf r = .error e) : decodeCommand r = .error e := by
  simp only [List.mem_cons, List.not_mem_nil, or_false] at hop
  obtain hop | hop | hop | hop | hop := hop <;> simp only [decodeCommand, hop, commandOf, h] <;> rfl

theorem descriptorOf_of_reservedDevice {r : CommandRecord} (h : 12 ≤ r.dev.toNat) :
    descriptorOf r = .error .reservedDevice := by
  rw [descriptorOf, deviceOfCode_of_reserved h]; rfl

theorem descriptorOf_of_reservedSize {r : CommandRecord} (hdev : r.dev.toNat < 12) (h : 5 ≤ r.size.toNat) :
    descriptorOf r = .error .reservedSize := by
  obtain ⟨dev, hd⟩ := deviceOfCode_of_legal hdev
  rw [descriptorOf, hd, sizeOfCode_of_reserved h]; rfl

theorem decodeProducer_of_foreign {op : BitVec 4} (h : op.toNat ≠ 10) (v : Byte) :
    decodeProducer op v = .error .producerPort := by
  rw [decodeProducer, if_neg]
  rintro rfl
  exact h rfl

/-- A request at the head of the schedule that the decoder rejects is the step's refusal or its bytes. -/
theorem step_of_decode_error {s : State} {r : Request} {rest : List Stimulus} {e : DecodeError}
    (hp : s.pending = .request r :: rest) (h : decode r = .error e) : step s = undecoded e r (s.withPending rest) := by
  rw [step_of_head hp, runStimulus_of_decode_error h]

/-- Settles O5: each code is rejected under its name by the decoder, and the step is that refusal. -/
theorem reservedCodesStopTheStep : Obligations.ReservedCodesStopTheStep := by
  refine ⟨fun s r rest hp hop => ?operation, fun s r rest hp hop hdev => ?device,
    fun s r rest hp hop hdev hsize => ?size, fun s op v rest hp hop => ?producer⟩
  case operation => exact step_of_decode_error hp (decodeCommand_of_reservedOperation hop)
  case device => exact step_of_decode_error hp (decodeCommand_of_descriptorOf hop (descriptorOf_of_reservedDevice hdev))
  case size =>
    exact step_of_decode_error hp (decodeCommand_of_descriptorOf hop (descriptorOf_of_reservedSize hdev hsize))
  case producer => exact step_of_decode_error hp (decodeProducer_of_foreign hop v)

/-! ## Control codes (R90) -/

/-- One byte of the line is one `!RX`. -/
theorem receiveBytes_singleton (b : Byte) (s : State) : receiveBytes [b] s = runEvent (.rx b) s := by
  rw [receiveBytes_cons]
  change _ = eventRx b s
  cases eventRx b s <;> rfl

/-- Settles O31: each control code is the arrival of its one byte. -/
theorem controlCodesHaveTheirByteValues : Obligations.ControlCodesHaveTheirByteValues := fun s =>
  ⟨receiveBytes_singleton Config.ENQ s, receiveBytes_singleton Config.ACK s, receiveBytes_singleton Config.NAK s,
    receiveBytes_singleton Config.EOT s, receiveBytes_singleton Config.ETX s⟩

/-! ## The script of TRANSACT (R132) -/

/-- Once the script has no next operation its result is the last return. -/
theorem transactResult_of_stopped {c : Command} {returns : List Return} (h : transactNext c returns = none) :
    transactResult c returns = returns.getLast? := by
  rw [transactResult, h]

/-- Settles O57, by the number of returns so far. -/
theorem transactStopsAtTheFirstError : Obligations.TransactStopsAtTheFirstError := by
  intro c a b w d
  exact ⟨rfl, rfl, fun hb => if_pos hb, fun hb => transactResult_of_stopped (if_neg hb), fun hw => if_pos hw,
    fun hw => transactResult_of_stopped (if_neg hw), transactResult_of_stopped rfl⟩

end Sys2Proof.Machine
end

section
/-! The frame encoder (40_frame_encoder.md): what each `ENC.*` answers, the fields of the frame it leaves, and that a
`COMPACT` over that frame leaves the wire form. -/

namespace Sys2Proof.Machine

/-! ## Byte sequences in a store -/

/-- The store made of a byte sequence holds it. -/
theorem Memory.holds_ofBytes (bs : List Byte) : (Memory.ofBytes 0 bs).holds 0 bs := by
  intro i _
  simp [Memory.read_ofBytes]

/-- A store holds a byte sequence where it has just been written. -/
theorem Memory.holds_writeBytes (m : Memory) (a : Nat) (bs : List Byte) : (m.writeBytes a bs).holds a bs := by
  intro i hi
  rw [Memory.read_writeBytes, if_pos (by omega), Nat.add_sub_cancel_left]

/-- The two parts of a sequence stand one after the other; `n` is the index where the second begins. -/
theorem Memory.holds_append {m : Memory} {a : Nat} {xs ys : List Byte} (h : m.holds a (xs ++ ys)) {n : Nat}
    (hn : a + xs.length = n) : m.holds a xs ∧ m.holds n ys := by
  subst hn
  constructor <;> intro i hi
  · rw [h i (by rw [List.length_append]; omega), List.getElem?_append_left hi]
  · rw [Nat.add_assoc, h (xs.length + i) (by rw [List.length_append]; omega),
      List.getElem?_append_right (Nat.le_add_right _ _), Nat.add_sub_cancel_left]

theorem Memory.zeros_of_holds_replicate {m : Memory} {a n : Nat} (h : m.holds a (List.replicate n 0x00#8)) :
    m.zeros a (a + n) := by
  intro i hi ha
  obtain ⟨k, rfl⟩ := Nat.exists_eq_add_of_le ha
  have hk : k < n := by omega
  rw [h k (by rwa [List.length_replicate]), List.getElem?_replicate_of_lt hk]

/-- A padded field holds its bytes and zeros after them up to its end. -/
theorem Memory.holds_padTo {m : Memory} {a n : Nat} {bs : List Byte} (h : m.holds a (padTo n bs))
    (hfits : bs.length ≤ n) : m.holds a bs ∧ m.zeros (a + bs.length) (a + n) := by
  obtain ⟨hbs, hpad⟩ := Memory.holds_append h rfl
  have hzeros := Memory.zeros_of_holds_replicate hpad
  rw [show a + bs.length + (n - bs.length) = a + n by omega] at hzeros
  exact ⟨hbs, hzeros⟩

/-! ## What an `ENC.*` answers -/

/-- The four `ENC.*` are one operation over the kind of the request. -/
theorem exec_encodeInstr (c : Command) (s : State) : exec (encodeInstr c) s = encodeOperation c s := by
  cases c <;> rfl

/-- An `ENC.*` answers a next state exactly from an idle command port, for a descriptor in bounds whose view fits
`FRAME`; it leaves the image of the request in `FRAME`, returns `OK` and writes nothing else. -/
theorem exec_encodeInstr_next {c : Command} {s t : State} :
    exec (encodeInstr c) s = .next t ↔ s.hostop = .idle ∧ c.fits s.cfg ∧
      (requestView s.cfg c).length ≤ s.cfg.frameCap ∧
      t = returnHost { s with frame := Memory.ofBytes 0 (frameImage s.cfg c) } .ok := by
  rw [exec_encodeInstr, encodeOperation, hostStep_next, andThen_next]
  simp only [encodeFrame_next, finish_next]
  constructor
  · rintro ⟨hidle, _, ⟨hfits, hlen, rfl⟩, rfl⟩
    exact ⟨hidle, hfits, hlen, rfl⟩
  · rintro ⟨hidle, hfits, hlen, rfl⟩
    exact ⟨hidle, _, ⟨hfits, hlen, rfl⟩, rfl⟩

/-- Under the constraints of R5 the view of a descriptor in bounds fits `FRAME`. -/
theorem requestView_length_le_frameCap {cfg : Config} {c : Command} (hv : cfg.Valid) (h : c.fits cfg) :
    (requestView cfg c).length ≤ cfg.frameCap := by
  obtain ⟨-, -, hcap, -⟩ := hv
  have hlen := requestView_length h
  omega

/-- Under the constraints of R5 an `ENC.*` of a descriptor in bounds completes from an idle command port. -/
theorem exec_encodeInstr_of_fits {c : Command} {s : State} (hv : s.cfg.Valid) (hidle : s.hostop = .idle)
    (h : c.fits s.cfg) :
    exec (encodeInstr c) s = .next (returnHost { s with frame := Memory.ofBytes 0 (frameImage s.cfg c) } .ok) :=
  exec_encodeInstr_next.2 ⟨hidle, h, requestView_length_le_frameCap hv h, rfl⟩

/-- The encoded frame: the view, zeros after it up to the end of `FRAME`, and nothing beyond. -/
theorem encoded_layout {cfg : Config} {c : Command} (h : (requestView cfg c).length ≤ cfg.frameCap) :
    (Memory.ofBytes 0 (frameImage cfg c)).holds 0 (requestView cfg c) ∧
    (Memory.ofBytes 0 (frameImage cfg c)).zeros (requestView cfg c).length cfg.frameCap ∧
    ∀ a, cfg.frameCap ≤ a → (Memory.ofBytes 0 (frameImage cfg c)).read a = none := by
  obtain ⟨hview, hzeros⟩ := Memory.holds_padTo (Memory.holds_ofBytes (frameImage cfg c)) h
  rw [Nat.zero_add, Nat.zero_add] at hzeros
  refine ⟨hview, hzeros, fun a ha => ?_⟩
  rw [read_encoded, List.getElem?_eq_none (by rwa [frameImage_length h])]

/-- An `ENC.*` in bounds completes with `OK`, its view in `FRAME`, and no other field of the state written. -/
theorem exec_encodeInstr_layout {c : Command} {s : State} (hv : s.cfg.Valid) (hidle : s.hostop = .idle)
    (h : c.fits s.cfg) {n : Nat} (hn : (requestView s.cfg c).length = n) :
    ∃ t, exec (encodeInstr c) s = .next t ∧ t = returnHost { s with frame := t.frame } .ok ∧
      t.frame.holds 0 (requestView s.cfg c) ∧ t.frame.zeros n s.cfg.frameCap ∧
      ∀ a, s.cfg.frameCap ≤ a → t.frame.read a = none :=
  ⟨_, exec_encodeInstr_of_fits hv hidle h, rfl, hn ▸ encoded_layout (requestView_length_le_frameCap hv h)⟩

/-- Settles O16: the frame left is the image of the request under the parameters. -/
theorem encodedFrameDependsOnOperandsAlone : Obligations.EncodedFrameDependsOnOperandsAlone := by
  intro c s s' t t' hcfg ht ht'
  obtain ⟨-, -, -, rfl⟩ := exec_encodeInstr_next.1 ht
  obtain ⟨-, -, -, rfl⟩ := exec_encodeInstr_next.1 ht'
  rw [returnHost_frame, returnHost_frame, hcfg]

/-! ## Descriptors out of bounds (R140, U1) -/

theorem encodeFrame_of_addressTooLong {c : Command} {s : State} (h : s.cfg.nameCap < c.desc.addr.length + 3) :
    encodeFrame c s = .refused .addressTooLong := if_pos (Nat.not_le.2 h)

theorem encodeFrame_of_payloadTooLong {c : Command} {s : State} (haddr : c.desc.fits s.cfg)
    (h : s.cfg.dataCap < c.payload.length) : encodeFrame c s = .refused .payloadTooLong := by
  rw [encodeFrame, if_neg (not_not.2 haddr), if_pos h]

/-- The encode stage is the first of an `ENC.*` and of a `DISPATCH`, so its refusal is theirs. -/
theorem exec_of_encodeFrame_refused {c : Command} {s : State} {r : Refusal} (hidle : s.hostop = .idle)
    (h : encodeFrame c s = .refused r) :
    exec (encodeInstr c) s = .refused r ∧ exec (.dispatch c) s = .refused r := by
  constructor
  · rw [exec_encodeInstr, encodeOperation, hostStep_idle hidle, h, andThen_of_refused]
  · change execDispatch c s = _
    rw [execDispatch, hostStep_idle hidle, h, andThen_of_refused]

/-- Settles O14: the encode stage tests the address text and then the payload. -/
theorem descriptorsOutOfBoundsAreRefused : Obligations.DescriptorsOutOfBoundsAreRefused := fun _ _ hidle =>
  ⟨fun haddr => exec_of_encodeFrame_refused hidle (encodeFrame_of_addressTooLong haddr),
    fun haddr hdata => exec_of_encodeFrame_refused hidle (encodeFrame_of_payloadTooLong haddr hdata)⟩

/-! ## The fields of a view (R100 to R103) -/

theorem nameField_length {cap : Nat} {d : Descriptor} (h : d.addr.length + 3 ≤ cap) :
    (padTo cap (nameText d)).length = cap := padTo_length h

theorem dataField_length {cap : Nat} {data : List Byte} (h : data.length ≤ cap) :
    (padTo cap (payloadText data)).length = cap := padTo_length ((payloadText_length data).symm ▸ h)

/-- The five fields every view begins with: ENQ, station, command byte and the two command-type bytes. -/
theorem holds_headText {m : Memory} {cmd t1 : Byte} {d : Descriptor} (h : m.holds 0 (headText cmd t1 d)) :
    m.holds 0 [0x05] ∧ m.holds 1 (nib d.station) ∧ m.holds 3 [cmd, 0x53, t1] := by
  obtain ⟨h, hcmd⟩ := Memory.holds_append (xs := [0x05] ++ nib d.station) h (n := 3) rfl
  obtain ⟨henq, hstation⟩ := Memory.holds_append h (n := 1) rfl
  exact ⟨henq, hstation, hcmd⟩

/-- The name field: '%' and the two letters, the address text, and zeros up to its end. -/
theorem holds_nameField {m : Memory} {a cap : Nat} {d : Descriptor} (hfits : d.addr.length + 3 ≤ cap)
    (h : m.holds a (padTo cap (nameText d))) :
    m.holds a [0x25, devLetter d.dev, sizeLetter d.size] ∧ m.holds (a + 3) d.addr ∧
      m.zeros (a + 3 + d.addr.length) (a + cap) := by
  obtain ⟨hname, hzeros⟩ := Memory.holds_padTo h hfits
  obtain ⟨hletters, haddr⟩ :=
    Memory.holds_append (xs := [0x25, devLetter d.dev, sizeLetter d.size]) hname (n := a + 3) rfl
  rw [nameText_length, Nat.add_comm d.addr.length, ← Nat.add_assoc] at hzeros
  exact ⟨hletters, haddr, hzeros⟩

/-- The data region: the shifted payload, and zeros up to its end (R101). -/
theorem holds_dataField {m : Memory} {a cap : Nat} {data : List Byte} (hfits : data.length ≤ cap)
    (h : m.holds a (padTo cap (payloadText data))) :
    m.holds a (data.map shift0) ∧ m.zeros (a + data.length) (a + cap) := by
  obtain ⟨hpayload, hzeros⟩ := Memory.holds_padTo h ((payloadText_length data).symm ▸ hfits)
  rw [payloadText_length] at hzeros
  exact ⟨hpayload, hzeros⟩

/-- The fields of an individual view up to the end of its name field (R100, R101). -/
theorem holds_individualFields {m : Memory} {cap : Nat} {cmd : Byte} {d : Descriptor}
    (hfits : d.addr.length + 3 ≤ cap)
    (h : m.holds 0 (headText cmd Config.charS d ++ nib d.count ++ nib (nameLength d) ++ padTo cap (nameText d))) :
    (m.holds 0 [0x05] ∧ m.holds 1 (nib d.station) ∧ m.holds 3 [cmd, 0x53, 0x53]) ∧ m.holds 6 (nib d.count) ∧
      m.holds 8 (nib (nameLength d)) ∧ m.holds 10 [0x25, devLetter d.dev, sizeLetter d.size] ∧ m.holds 13 d.addr ∧
      m.zeros (13 + d.addr.length) (10 + cap) := by
  obtain ⟨h, hname⟩ := Memory.holds_append h (n := 10) rfl
  obtain ⟨h, hlen⟩ := Memory.holds_append h (n := 8) rfl
  obtain ⟨hhead, hcount⟩ := Memory.holds_append h (n := 6) rfl
  exact ⟨holds_headText hhead, hcount, hlen, holds_nameField hfits hname⟩

/-- The fields of a continuous view up to the end of its data count (R102, R103). -/
theorem holds_continuousFields {m : Memory} {cap : Nat} {cmd : Byte} {d : Descriptor}
    (hfits : d.addr.length + 3 ≤ cap)
    (h : m.holds 0 (headText cmd Config.charB d ++ nib (nameLength d) ++ padTo cap (nameText d) ++ nib d.count)) :
    (m.holds 0 [0x05] ∧ m.holds 1 (nib d.station) ∧ m.holds 3 [cmd, 0x53, 0x42]) ∧
      m.holds 6 (nib (nameLength d)) ∧
      (m.holds 8 [0x25, devLetter d.dev, sizeLetter d.size] ∧ m.holds 11 d.addr ∧
        m.zeros (11 + d.addr.length) (8 + cap)) ∧ m.holds (8 + cap) (nib d.count) := by
  obtain ⟨h, hcount⟩ := Memory.holds_append h (n := 8 + cap) (by simp [nameField_length hfits]; omega)
  obtain ⟨h, hname⟩ := Memory.holds_append h (n := 8) rfl
  obtain ⟨hhead, hlen⟩ := Memory.holds_append h (n := 6) rfl
  exact ⟨holds_headText hhead, hlen, holds_nameField hfits hname, hcount⟩

/-- Settles O10: the view of R100, cut at its tail. -/
theorem encRssWritesTheIndividualReadView : Obligations.EncRssWritesTheIndividualReadView := by
  intro s d hv hidle haddr
  have hname := nameField_length haddr
  obtain ⟨t, hexec, hframe, hview, hrest, hnone⟩ :=
    exec_encodeInstr_layout (c := .rss d) hv hidle ⟨haddr, Nat.zero_le _⟩ (n := 11 + s.cfg.nameCap)
      (by simp [requestView, hname]; omega)
  obtain ⟨hview, heot⟩ := Memory.holds_append hview (n := 10 + s.cfg.nameCap) (by simp [hname]; omega)
  obtain ⟨⟨henq, hstation, hcmd⟩, hcount, hlen, hletters, htext, hpad⟩ := holds_individualFields haddr hview
  exact ⟨⟨_, rfl, rfl⟩, t, hexec, hframe, henq, hstation, hcmd, hcount, hlen, hletters, htext, hpad, heot, hrest,
    hnone⟩

/-- Settles O11: the view of R101, cut at its tail and its data region. -/
theorem encWssWritesTheIndividualWriteView : Obligations.EncWssWritesTheIndividualWriteView := by
  intro s d data hv hidle haddr hdata
  have hname := nameField_length haddr
  have hfield := dataField_length hdata
  obtain ⟨t, hexec, hframe, hview, hrest, hnone⟩ :=
    exec_encodeInstr_layout (c := .wss d data) hv hidle ⟨haddr, hdata⟩ (n := 11 + s.cfg.nameCap + s.cfg.dataCap)
      (by simp [requestView, hname, hfield]; omega)
  obtain ⟨hview, heot⟩ :=
    Memory.holds_append hview (n := 10 + s.cfg.nameCap + s.cfg.dataCap) (by simp [hname, hfield]; omega)
  obtain ⟨hview, hregion⟩ := Memory.holds_append hview (n := 10 + s.cfg.nameCap) (by simp [hname]; omega)
  obtain ⟨hpayload, hzeros⟩ := holds_dataField hdata hregion
  obtain ⟨⟨henq, hstation, hcmd⟩, hcount, hlen, hletters, htext, hpad⟩ := holds_individualFields haddr hview
  exact ⟨⟨_, rfl, rfl⟩, t, hexec, hframe, henq, hstation, hcmd, hcount, hlen, hletters, htext, hpad, hpayload, hzeros,
    heot, hrest, hnone⟩

/-- Settles O12: the view of R102, cut at its tail. -/
theorem encRsbWritesTheContinuousReadView : Obligations.EncRsbWritesTheContinuousReadView := by
  intro s d hv hidle haddr
  have hname := nameField_length haddr
  obtain ⟨t, hexec, hframe, hview, hrest, hnone⟩ :=
    exec_encodeInstr_layout (c := .rsb d) hv hidle ⟨haddr, Nat.zero_le _⟩ (n := 11 + s.cfg.nameCap)
      (by simp [requestView, hname]; omega)
  obtain ⟨hview, heot⟩ := Memory.holds_append hview (n := 10 + s.cfg.nameCap) (by simp [hname]; omega)
  obtain ⟨⟨henq, hstation, hcmd⟩, hlen, ⟨hletters, htext, hpad⟩, hcount⟩ := holds_continuousFields haddr hview
  exact ⟨⟨_, rfl, rfl⟩, t, hexec, hframe, henq, hstation, hcmd, hlen, hletters, htext, hpad, hcount, heot, hrest,
    hnone⟩

/-- Settles O13: the view of R103, cut at its tail and its data region. -/
theorem encWsbWritesTheContinuousWriteView : Obligations.EncWsbWritesTheContinuousWriteView := by
  intro s d data hv hidle haddr hdata
  have hname := nameField_length haddr
  have hfield := dataField_length hdata
  obtain ⟨t, hexec, hframe, hview, hrest, hnone⟩ :=
    exec_encodeInstr_layout (c := .wsb d data) hv hidle ⟨haddr, hdata⟩ (n := 11 + s.cfg.nameCap + s.cfg.dataCap)
      (by simp [requestView, hname, hfield]; omega)
  obtain ⟨hview, heot⟩ :=
    Memory.holds_append hview (n := 10 + s.cfg.nameCap + s.cfg.dataCap) (by simp [hname, hfield]; omega)
  obtain ⟨hview, hregion⟩ := Memory.holds_append hview (n := 10 + s.cfg.nameCap) (by simp [hname]; omega)
  obtain ⟨hpayload, hzeros⟩ := holds_dataField hdata hregion
  obtain ⟨⟨henq, hstation, hcmd⟩, hlen, ⟨hletters, htext, hpad⟩, hcount⟩ := holds_continuousFields haddr hview
  exact ⟨⟨_, rfl, rfl⟩, t, hexec, hframe, henq, hstation, hcmd, hlen, hletters, htext, hpad, hcount, hpayload, hzeros,
    heot, hrest, hnone⟩

/-! ## From the view to the wire form (R146) -/

/-- A scan passes over all of `xs` and copies `ys` out of it: `xs` has no marker and `ys` is `xs` less its zeros. -/
def CompactsTo (xs ys : List Byte) : Prop := Config.EOT ∉ xs ∧ xs.filter (fun b => decide (b ≠ 0x00#8)) = ys

theorem CompactsTo.append {xs ys xs' ys' : List Byte} (h : CompactsTo xs ys) (h' : CompactsTo xs' ys') :
    CompactsTo (xs ++ xs') (ys ++ ys') := by
  obtain ⟨heot, rfl⟩ := h
  obtain ⟨heot', rfl⟩ := h'
  exact ⟨by simp [heot, heot'], List.filter_append _ _⟩

/-- Bytes that are neither zero nor the marker are copied as they are. -/
theorem compactsTo_self {xs : List Byte} (h : ∀ b ∈ xs, b ≠ 0x00#8 ∧ b ≠ Config.EOT) : CompactsTo xs xs := by
  constructor
  · intro heot
    obtain ⟨-, hne⟩ := h _ heot
    exact hne rfl
  · rw [List.filter_eq_self]
    intro b hb
    obtain ⟨hzero, -⟩ := h b hb
    exact decide_eq_true hzero

/-- The zeros that pad a field are dropped. -/
theorem CompactsTo.padTo {xs ys : List Byte} (h : CompactsTo xs ys) (n : Nat) : CompactsTo (padTo n xs) ys := by
  have hzeros : CompactsTo (List.replicate (n - xs.length) 0x00#8) [] :=
    ⟨fun heot => absurd (List.eq_of_mem_replicate heot) (by decide), by simp⟩
  rw [← List.append_nil ys]
  exact h.append hzeros

/-- What a scan copies when the first marker stands after bytes it passes over. -/
theorem copied_of_compactsTo {xs ys : List Byte} (h : CompactsTo xs ys) (rest : List Byte) :
    copied (xs ++ [Config.EOT] ++ rest) = (ys ++ [Config.EOT], true) := by
  obtain ⟨heot, rfl⟩ := h
  have hpass : ∀ b ∈ xs, decide (b ≠ Config.EOT) = true :=
    fun b hb => decide_eq_true (ne_of_mem_of_not_mem hb heot)
  rw [copied, List.append_assoc, List.takeWhile_append_of_pos hpass]
  simp

/-- A nibble character is neither zero nor the marker. -/
theorem compactsTo_nib (v : Byte) : CompactsTo (nib v) (nib v) := by
  refine compactsTo_self fun b hb => ?_
  have hb : 0x30 ≤ b.toNat := by
    obtain rfl | rfl : b = nibChar (v.extractLsb' 4 4) ∨ b = nibChar (v.extractLsb' 0 4) := by simpa [nib] using hb
    all_goals rw [nibChar_toNat]; omega
  constructor <;> rintro rfl <;> exact absurd hb (by decide)

/-- The head of a view is copied as it is, its characters being letters. -/
theorem compactsTo_headText {cmd t1 : Byte} (h : ∀ b ∈ [cmd, Config.charS, t1], b ≠ 0x00#8 ∧ b ≠ Config.EOT)
    (d : Descriptor) : CompactsTo (headText cmd t1 d) (headText cmd t1 d) := by
  have henq : CompactsTo [Config.ENQ] [Config.ENQ] := compactsTo_self (by decide)
  exact (henq.append (compactsTo_nib d.station)).append (compactsTo_self h)

/-- A legitimate device name is copied as it is (R93, R109). -/
theorem compactsTo_nameText {d : Descriptor} (h : d.legitimate) : CompactsTo (nameText d) (nameText d) := by
  have hdev : ∀ x, devLetter x ≠ 0x00#8 ∧ devLetter x ≠ Config.EOT := fun x => by cases x <;> decide
  have hsize : ∀ x, sizeLetter x ≠ 0x00#8 ∧ sizeLetter x ≠ Config.EOT := fun x => by cases x <;> decide
  refine compactsTo_self (List.forall_mem_cons.2 ⟨by decide, ?_⟩)
  exact List.forall_mem_cons.2 ⟨hdev d.dev, List.forall_mem_cons.2 ⟨hsize d.size, h⟩⟩

/-- A legitimate payload is copied as it is: only 0xD0 and 0xD4 are shifted to zero and to the marker (R317). -/
theorem compactsTo_payloadText {data : List Byte} (h : legitimatePayload data) :
    CompactsTo (payloadText data) (payloadText data) := by
  refine compactsTo_self fun b hb => ?_
  obtain ⟨v, hv, rfl⟩ := List.mem_map.1 hb
  obtain ⟨hzero, heot⟩ := h v hv
  constructor <;> intro e
  · exact hzero ((unshift0_shift0 v).symm.trans (congrArg unshift0 e))
  · exact heot ((unshift0_shift0 v).symm.trans (congrArg unshift0 e))

/-- Field by field a scan of the view of legitimate operands copies the wire form; the tail of both is the marker. -/
theorem requestView_compactsTo (cfg : Config) {c : Command} (h : c.legitimate) :
    ∃ view wire, requestView cfg c = view ++ [Config.EOT] ∧ wireRequest c = wire ++ [Config.EOT] ∧
      CompactsTo view wire := by
  obtain ⟨haddr, hdata⟩ := h
  have hname := (compactsTo_nameText haddr).padTo cfg.nameCap
  have hcount := compactsTo_nib c.desc.count
  have hlen := compactsTo_nib (nameLength c.desc)
  have hpayload := (compactsTo_payloadText hdata).padTo cfg.dataCap
  cases c with
  | rss d =>
    have hhead := compactsTo_headText (cmd := Config.charR) (t1 := Config.charS) (by decide) d
    exact ⟨_, _, rfl, rfl, ((hhead.append hcount).append hlen).append hname⟩
  | wss d data =>
    have hhead := compactsTo_headText (cmd := Config.charW) (t1 := Config.charS) (by decide) d
    exact ⟨_, _, rfl, rfl, (((hhead.append hcount).append hlen).append hname).append hpayload⟩
  | rsb d =>
    have hhead := compactsTo_headText (cmd := Config.charR) (t1 := Config.charB) (by decide) d
    exact ⟨_, _, rfl, rfl, ((hhead.append hlen).append hname).append hcount⟩
  | wsb d data =>
    have hhead := compactsTo_headText (cmd := Config.charW) (t1 := Config.charB) (by decide) d
    exact ⟨_, _, rfl, rfl, (((hhead.append hlen).append hname).append hcount).append hpayload⟩

/-- What a scan of the encoded frame of legitimate operands copies. -/
theorem copied_frameImage (cfg : Config) {c : Command} (h : c.legitimate) :
    copied (frameImage cfg c) = (wireRequest c, true) := by
  obtain ⟨view, wire, hview, hwire, hcompacts⟩ := requestView_compactsTo cfg h
  rw [frameImage, padTo, hview, hwire]
  exact copied_of_compactsTo hcompacts _

theorem wireRequest_length (c : Command) : (wireRequest c).length = 14 + c.desc.addr.length + c.payload.length := by
  cases c <;> simp [wireRequest, Command.desc, Command.payload] <;> omega

/-- `COMPACT` over a written `FRAME` with a marker: the bytes copied and their terminator in `TXBUF`, their count in
`TX_LEN`, `OK`. -/
theorem exec_compact_of_marker {s : State} {bs out : List Byte} (hidle : s.hostop = .idle)
    (hlen : bs.length = s.cfg.frameCap) (hholds : s.frame.holds 0 bs) (hcopied : copied bs = (out, true)) :
    exec .compact s =
      .next (returnHost { s with txbuf := s.txbuf.writeBytes 0 (out ++ [0x00#8]), txLen := out.length } .ok) := by
  have hscan : scanFrame s 0 s.cfg.frameCap = .ok (out, true) := by
    rw [← hlen, scanFrame_of_written (by omega) hholds, hcopied]
  change execCompact s = _
  rw [execCompact, hostStep_idle hidle, compactFrame_of_scan hscan, withValue_of_ok]
  rfl

/-- Settles O19: the encode leaves the image of the request, of which a scan copies the wire form. -/
theorem encodeThenCompactLeavesTheWireForm : Obligations.EncodeThenCompactLeavesTheWireForm := by
  intro s c hv hidle hfits hlegit
  have hencode := exec_encodeInstr_of_fits hv hidle hfits
  have hlen := frameImage_length (requestView_length_le_frameCap hv hfits)
  refine ⟨_, _, hencode, exec_compact_of_marker hidle hlen (Memory.holds_ofBytes _) (copied_frameImage s.cfg hlegit),
    ?returns, rfl, wireRequest_length c, Memory.holds_writeBytes _ _ _⟩
  case returns => exact List.append_assoc _ _ _

end Sys2Proof.Machine
end

section
/-! The frame compactor (41_frame_compactor.md): what `COMPACT` copies with and without a marker in `FRAME`, and that
an encoded `FRAME` always has one. -/

namespace Sys2Proof.Machine

/-! ## What a scan copies -/

theorem copied_of_marker {bs : List Byte} (h : Config.EOT ∈ bs) :
    copied bs = ((bs.takeWhile fun b => decide (b ≠ Config.EOT)).filter (fun b => decide (b ≠ 0x00#8)) ++ [Config.EOT],
      true) := by
  rw [copied, if_pos h, decide_eq_true h]

/-- Without a marker no byte stops the scan. -/
theorem copied_of_no_marker {bs : List Byte} (h : Config.EOT ∉ bs) :
    copied bs = (bs.filter (fun b => decide (b ≠ 0x00#8)), false) := by
  have hall : bs.takeWhile (fun b => decide (b ≠ Config.EOT)) = bs :=
    List.takeWhile_eq_self_iff.2 fun b hb => decide_eq_true (ne_of_mem_of_not_mem hb h)
  rw [copied, if_neg h, decide_eq_false h, hall, List.append_nil]

/-! ## What `COMPACT` answers (R160) -/

/-- The counterpart of `exec_compact_of_marker`: the bytes copied in `TXBUF`, nothing to transmit,
`TERMINATOR_MISSING`. -/
theorem exec_compact_of_no_marker {s : State} {bs out : List Byte} (hidle : s.hostop = .idle)
    (hlen : bs.length = s.cfg.frameCap) (hholds : s.frame.holds 0 bs) (hcopied : copied bs = (out, false)) :
    exec .compact s =
      .next (returnHost { s with txbuf := s.txbuf.writeBytes 0 out, txLen := 0 } .terminatorMissing) := by
  have hscan : scanFrame s 0 s.cfg.frameCap = .ok (out, false) := by
    rw [← hlen, scanFrame_of_written (by omega) hholds, hcopied]
  change execCompact s = _
  rw [execCompact, hostStep_idle hidle, compactFrame_of_scan hscan, withValue_of_ok]
  rfl

/-- Writing a byte sequence leaves every byte outside its place alone. -/
theorem Memory.sameOutside_writeBytes (m : Memory) (a : Nat) {bs : List Byte} {n : Nat} (hn : bs.length = n) :
    m.sameOutside (m.writeBytes a bs) a n := by
  intro i hi
  rw [Memory.read_writeBytes, if_neg (by omega)]

/-- Settles O17, by whether `FRAME` has a marker: each of the two answers is one write into `TXBUF`. -/
theorem compactCopiesNonZeroBytesToTheFirstEot : Obligations.CompactCopiesNonZeroBytesToTheFirstEot := by
  refine ⟨fun r hop => ?decoded, fun s bs hidle hlen hholds => ⟨fun hmarker => ?marker, fun hnone => ?noMarker⟩⟩
  case decoded =>
    change decodeCommand r = _
    rw [decodeCommand, hop]
    rfl
  case marker =>
    exact ⟨_, exec_compact_of_marker hidle hlen hholds (copied_of_marker hmarker), rfl,
      Memory.holds_writeBytes _ _ _, Memory.sameOutside_writeBytes _ _ List.length_append⟩
  case noMarker =>
    exact ⟨_, exec_compact_of_no_marker hidle hlen hholds (copied_of_no_marker hnone), rfl,
      Memory.holds_writeBytes _ _ _, Memory.sameOutside_writeBytes _ _ rfl⟩

/-! ## The marker of an encoded frame (R166) -/

/-- Every view ends in the marker. -/
theorem eot_mem_requestView (cfg : Config) (c : Command) : Config.EOT ∈ requestView cfg c := by
  cases c <;> exact List.mem_append_right _ List.mem_cons_self

/-- A scan of an encoded frame meets a marker, whatever the bytes of the operands. -/
theorem copied_frameImage_marker (cfg : Config) (c : Command) : ∃ out, copied (frameImage cfg c) = (out, true) :=
  ⟨_, copied_of_marker (List.mem_append_left _ (eot_mem_requestView cfg c))⟩

/-- The compact stage over an encoded frame answers `OK`. -/
theorem compactFrame_of_encodeFrame {c : Command} {s t : State} (h : encodeFrame c s = .next t) :
    ∃ out, copied (frameImage s.cfg c) = (out, true) ∧
      compactFrame t = .ok ({ t with txbuf := t.txbuf.writeBytes 0 (out ++ [0x00#8]), txLen := out.length }, .ok) := by
  obtain ⟨-, hlen, rfl⟩ := encodeFrame_next.1 h
  obtain ⟨out, hout⟩ := copied_frameImage_marker s.cfg c
  refine ⟨out, hout, compactFrame_of_scan (found := true) ?_⟩
  have himage := frameImage_length hlen
  rw [← hout, ← himage]
  exact scanFrame_of_written (by simp [himage]) (Memory.holds_ofBytes _)

/-- What a `DISPATCH` that runs leaves: the encoded frame, the bytes a scan of it copies with their terminator, and a
send started over them. -/
theorem execDispatch_next {c : Command} {s t : State} (h : execDispatch c s = .next t) :
    ∃ out, copied (frameImage s.cfg c) = (out, true) ∧
      t = startSend { s with frame := Memory.ofBytes 0 (frameImage s.cfg c)
                             txbuf := s.txbuf.writeBytes 0 (out ++ [0x00#8])
                             txLen := out.length } := by
  obtain ⟨-, h⟩ := hostStep_next.1 h
  obtain ⟨u, hu, h⟩ := andThen_next.1 h
  obtain ⟨out, hout, hcompact⟩ := compactFrame_of_encodeFrame hu
  rw [hcompact, withValue_of_ok] at h
  obtain ⟨-, -, rfl⟩ := encodeFrame_next.1 hu
  cases h
  exact ⟨out, hout, rfl⟩

/-- Settles O20: the encode stage always leaves a marker for the scan to meet. -/
theorem terminatorIsNeverMissingAfterEncoding : Obligations.TerminatorIsNeverMissingAfterEncoding := by
  refine ⟨fun s t u c hencode hcompact => ?compact, fun s t c hdispatch => ?dispatch⟩
  case compact =>
    obtain ⟨hidle, -, hlen, rfl⟩ := exec_encodeInstr_next.1 hencode
    obtain ⟨out, hout⟩ := copied_frameImage_marker s.cfg c
    cases hcompact.symm.trans
      (exec_compact_of_marker hidle (frameImage_length hlen) (Memory.holds_ofBytes _) hout)
    rfl
  case dispatch =>
    obtain ⟨out, -, rfl⟩ := execDispatch_next (c := c) (s := s) hdispatch
    exact ⟨rfl, rfl⟩

end Sys2Proof.Machine
end

section
/-! `DISPATCH`, `SEND` and the completion of a blocking operation (42_dispatch_and_send.md, R199): what each start step
answers, when the HOST's poll releases it, and how far the ticks bring a deadline. -/

namespace Sys2Proof.Machine

/-! ## The start step of a send (R175) -/

theorem exec_send_of_idle {s : State} (h : s.hostop = .idle) : exec .send s = .next (startSend s) := by
  change execSend s = _
  rw [execSend, hostStep_idle h]

/-- Settles O21: nothing but the guard of R35 stands before the start step. -/
theorem sendStartsATransmission : Obligations.SendStartsATransmission := by
  refine ⟨fun r hop => ?decoded, fun s hidle => exec_send_of_idle hidle⟩
  case decoded =>
    change decodeCommand r = _
    rw [decodeCommand, hop]
    rfl

/-! ## The acceptance of a byte (R178) -/

/-- Settles O23, by the two lemmas that say what `!TXACC` does when enabled and what a `!TXACC` that happens needs. -/
theorem txAcceptEmitsTheNextByte : Obligations.TxAcceptEmitsTheNextByte :=
  ⟨fun _ _ hop hlt hlen hb => eventTxAccept_of_enabled ⟨hop, hlt⟩ hlen hb, fun _ _ h => (eventTxAccept_next h).1⟩

/-! ## `DISPATCH` (R170) -/

/-- A compacted frame is never empty: it ends in its marker. -/
theorem length_pos_of_copied {bs out : List Byte} (h : copied bs = (out, true)) : 0 < out.length := by
  by_cases hm : Config.EOT ∈ bs
  · rw [copied_of_marker hm] at h
    cases h
    simp
  · rw [copied_of_no_marker hm] at h
    cases h

/-- Under the constraints of R5 a `DISPATCH` of a descriptor in bounds completes its start step from an idle command
port, over the bytes that a scan of its encoded frame copies. -/
theorem exec_dispatch_of_fits {c : Command} {s : State} {out : List Byte} (hv : s.cfg.Valid) (hidle : s.hostop = .idle)
    (hfits : c.fits s.cfg) (hout : copied (frameImage s.cfg c) = (out, true)) :
    exec (.dispatch c) s =
      .next (startSend { s with frame := Memory.ofBytes 0 (frameImage s.cfg c)
                                txbuf := s.txbuf.writeBytes 0 (out ++ [0x00#8])
                                txLen := out.length }) := by
  have hencode := encodeFrame_of_fits hv hfits
  obtain ⟨out', hout', hcompact⟩ := compactFrame_of_encodeFrame hencode
  obtain rfl : out = out' := congrArg Prod.fst (hout.symm.trans hout')
  change execDispatch c s = _
  rw [execDispatch, hostStep_idle hidle, hencode, andThen_of_next, hcompact, withValue_of_ok]

/-- Settles O22: each of the three operations, and the `DISPATCH`, is known as an equation over the bytes copied from
the encoded frame; the two end states differ in the returns alone. -/
theorem dispatchIsEncodeCompactSend : Obligations.DispatchIsEncodeCompactSend := by
  intro s c hv hidle hfits
  obtain ⟨out, hout⟩ := copied_frameImage_marker s.cfg c
  have himage := frameImage_length (requestView_length_le_frameCap hv hfits)
  exact ⟨_, _, _, exec_encodeInstr_of_fits hv hidle hfits,
    exec_compact_of_marker hidle himage (Memory.holds_ofBytes _) hout, exec_send_of_idle hidle,
    exec_dispatch_of_fits hv hidle hfits hout, rfl, rfl, rfl, length_pos_of_copied hout⟩

/-! ## The elapsed time (R8, R276) -/

/-- The model's elapsed time is the one R8 writes over the integers. -/
theorem elapsedInt_eq_elapsed (cfg : Config) (t1 t0 : Nat) : elapsedInt cfg t1 t0 = (elapsed cfg t1 t0 : Int) := by
  have hlt : t0 % cfg.clockSpan < cfg.clockSpan := Nat.mod_lt t0 (clockSpan_pos cfg)
  have hdiv : (cfg.clockSpan : Int) * (t0 / cfg.clockSpan : Nat) + (t0 % cfg.clockSpan : Nat) = t0 :=
    mod_cast Nat.div_add_mod t0 cfg.clockSpan
  have hsum : ((t1 + (cfg.clockSpan - t0 % cfg.clockSpan) : Nat) : Int) =
      (t1 - t0) + cfg.clockSpan * ((t0 / cfg.clockSpan : Nat) + 1) := by
    rw [mul_add, mul_one]
    omega
  rw [elapsed, Int.natCast_mod, hsum, Int.add_mul_emod_self_left]
  rfl

theorem elapsed_lt_clockSpan (cfg : Config) (t1 t0 : Nat) : elapsed cfg t1 t0 < cfg.clockSpan :=
  Nat.mod_lt _ (clockSpan_pos cfg)

/-- Elapsed time advances with the clock, which wraps. -/
theorem elapsed_add (cfg : Config) (t1 t0 n : Nat) :
    elapsed cfg ((t1 + n) % cfg.clockSpan) t0 = (elapsed cfg t1 t0 + n) % cfg.clockSpan := by
  rw [elapsed, elapsed, Nat.mod_add_mod, Nat.mod_add_mod, Nat.add_right_comm]

/-- A deadline within the span of the clock is reached by no more milliseconds than it is long. -/
theorem exists_le_elapsed_add {cfg : Config} {timeout : Nat} (h : timeout < cfg.clockSpan) (t1 t0 : Nat) :
    ∃ n ≤ timeout, timeout ≤ elapsed cfg ((t1 + n) % cfg.clockSpan) t0 := by
  have hlt := elapsed_lt_clockSpan cfg t1 t0
  refine ⟨timeout - elapsed cfg t1 t0, Nat.sub_le _ _, ?_⟩
  rw [elapsed_add, Nat.mod_eq_of_lt (by omega)]
  omega

/-- A run of ticks moves the clock and nothing else. -/
theorem runEvents_tick : ∀ (n : Nat) {s : State}, s.now < s.cfg.clockSpan →
    runEvents (List.replicate n .tick) s = .next { s with now := (s.now + n) % s.cfg.clockSpan }
  | 0, s, h => by rw [Nat.add_zero, Nat.mod_eq_of_lt h]; rfl
  | n + 1, s, h => by
    have hrest := runEvents_tick n (s := { s with now := (s.now + 1) % s.cfg.clockSpan })
      (Nat.mod_lt _ (clockSpan_pos s.cfg))
    rw [List.replicate_succ, runEvents, show runEvent .tick s = .next _ from rfl, andThen_of_next, hrest]
    simp only [Nat.mod_add_mod, Nat.add_assoc, Nat.add_comm 1]

/-! ## The completion steps (R176, R177, R197, R198) -/

theorem hostPoll_of_sendDone {s : State} (h : sendDone s) : runEvent .hostPoll s = .next (completeSend s) := by
  have ⟨hop, _⟩ := h
  simp only [runEvent, eventHostPoll, hop, if_pos h]

/-- Success wins over the deadline: bytes must remain for the timeout (R177). -/
theorem hostPoll_of_sendTimedOut {s : State} (h : sendTimedOut s) :
    runEvent .hostPoll s = .next (timeoutSend s) := by
  have ⟨hop, hlt, _⟩ := h
  have hnot : ¬ sendDone s := fun hdone => Nat.ne_of_lt hlt hdone.2
  simp only [runEvent, eventHostPoll, hop, if_neg hnot, if_pos h]

theorem hostPoll_of_waitDone {s : State} (h : waitDone s) : runEvent .hostPoll s = .next (completeWait s) := by
  have ⟨hop, _⟩ := h
  simp only [runEvent, eventHostPoll, hop, if_pos h]

/-- Success wins over the deadline: no frame may have arrived for the timeout (R198). -/
theorem hostPoll_of_waitTimedOut {s : State} (h : waitTimedOut s) :
    runEvent .hostPoll s = .next (timeoutWait s) := by
  have ⟨hop, harr, _⟩ := h
  have hnot : ¬ waitDone s := fun hdone => by rw [hdone.2] at harr; cases harr
  simp only [runEvent, eventHostPoll, hop, if_neg hnot, if_pos h]

/-- One of the four completion steps of the blocking operations is enabled. -/
def HostMayReturn (s : State) : Prop := sendDone s ∨ sendTimedOut s ∨ waitDone s ∨ waitTimedOut s

/-- A poll that finds a completion step enabled returns one status and leaves `HOSTOP` idle. -/
theorem hostPoll_of_hostMayReturn {s : State} (h : HostMayReturn s) :
    ∃ u, runEvent .hostPoll s = .next u ∧ u.hostop = .idle ∧ u.hostReturns.length = s.hostReturns.length + 1 := by
  obtain h | h | h | h := h
  · exact ⟨_, hostPoll_of_sendDone h, rfl, List.length_append⟩
  · exact ⟨_, hostPoll_of_sendTimedOut h, rfl, List.length_append⟩
  · exact ⟨_, hostPoll_of_waitDone h, rfl, List.length_append⟩
  · exact ⟨_, hostPoll_of_waitTimedOut h, rfl, List.length_append⟩

/-- The HOST's poll releases it by an enabled completion step and in no other way. -/
theorem hostMayReturn_of_hostPoll {s t : State} (h : runEvent .hostPoll s = .next t) (hidle : t.hostop = .idle) :
    HostMayReturn s := by
  change eventHostPoll s = _ at h
  unfold eventHostPoll at h
  split at h
  case h_1 => cases h
  case h_2 hop =>
    split at h
    case isTrue hd => exact .inl hd
    case isFalse =>
      split at h
      case isTrue ht => exact .inr (.inl ht)
      case isFalse => cases h; rw [hop] at hidle; cases hidle
  case h_3 hop =>
    split at h
    case isTrue hd => exact .inr (.inr (.inl hd))
    case isFalse =>
      split at h
      case isTrue ht => exact .inr (.inr (.inr ht))
      case isFalse => cases h; rw [hop] at hidle; cases hidle

/-- R177 with the elapsed time of R8 over the integers. -/
theorem sendTimedOut_iff_elapsedInt {s : State} (hop : s.hostop = .sending) :
    sendTimedOut s ↔ s.txIdx < s.txLen ∧ (s.cfg.txTimeoutMs : Int) ≤ elapsedInt s.cfg s.now s.txT0 := by
  rw [elapsedInt_eq_elapsed, Int.ofNat_le]
  exact and_iff_right hop

/-- Settles O25: during a send the completion steps of a wait are not enabled, so the poll is one of the other two. -/
theorem sendCompletesOrTimesOut : Obligations.SendCompletesOrTimesOut := by
  intro s hop
  refine ⟨fun hdone => hostPoll_of_sendDone ⟨hop, hdone⟩,
    fun hlt hdue => hostPoll_of_sendTimedOut ((sendTimedOut_iff_elapsedInt hop).2 ⟨hlt, hdue⟩), fun t h hidle => ?only⟩
  case only =>
    obtain ⟨-, hdone⟩ | ht | ⟨hw, -⟩ | ⟨hw, -⟩ := hostMayReturn_of_hostPoll h hidle
    · exact .inl hdone
    · exact .inr ((sendTimedOut_iff_elapsedInt hop).1 ht)
    all_goals rw [hop] at hw; cases hw

/-! ## Release by ticks alone (R180, R199) -/

theorem sending_or_waiting_of_busy {s : State} (h : s.hostop ≠ .idle) : s.hostop = .sending ∨ s.hostop = .waiting := by
  cases hop : s.hostop with
  | idle => exact absurd hop h
  | sending => exact .inl rfl
  | waiting => exact .inr rfl

/-- In a good state with a blocking operation in progress a completion step is enabled at some reading of the clock
that the ticks reach within the operation's timeout. -/
theorem exists_tick_hostMayReturn {s : State} (h : Inv s) (hbusy : s.hostop ≠ .idle) :
    ∃ n ≤ max s.cfg.txTimeoutMs s.cfg.rxTimeoutMs,
      HostMayReturn { s with now := (s.now + n) % s.cfg.clockSpan } := by
  obtain ⟨⟨-, -, -, -, -, htxSpan, hrxSpan⟩, -, -, ⟨-, -, -, hidx⟩, -⟩ := h
  obtain hop | hop := sending_or_waiting_of_busy hbusy
  · obtain hdone | hlt := Nat.eq_or_lt_of_le (hidx hop)
    · exact ⟨0, Nat.zero_le _, .inl ⟨hop, hdone⟩⟩
    · obtain ⟨n, hn, hdue⟩ := exists_le_elapsed_add htxSpan s.now s.txT0
      exact ⟨n, le_max_of_le_left hn, .inr (.inl ⟨hop, hlt, hdue⟩)⟩
  · obtain harr | harr := Bool.eq_false_or_eq_true s.frameArrived
    · exact ⟨0, Nat.zero_le _, .inr (.inr (.inl ⟨hop, harr⟩))⟩
    · obtain ⟨n, hn, hdue⟩ := exists_le_elapsed_add hrxSpan s.now s.rxT0
      exact ⟨n, le_max_of_le_right hn, .inr (.inr (.inr ⟨hop, harr, hdue⟩))⟩

/-- Settles O35: the ticks bring the clock to a reading at which a completion step is enabled, and the poll takes it. -/
theorem blockedOperationsCanAlwaysFinish : Obligations.BlockedOperationsCanAlwaysFinish := by
  intro s hinv hbusy
  obtain ⟨n, hn, hmay⟩ := exists_tick_hostMayReturn hinv hbusy
  obtain ⟨-, -, -, -, -, -, -, hnow, -⟩ := hinv
  obtain ⟨u, hpoll, hidle, hreturns⟩ := hostPoll_of_hostMayReturn hmay
  exact ⟨n, _, u, hn, runEvents_tick n hnow, hpoll, hidle, hreturns⟩

end Sys2Proof.Machine
end

section
/-! Reception and its synchronisation with the HOST (43_receive_sync.md): what a byte of the line and an idle line do to
the receive side, the wait of the HOST, and which steps write the "frame arrived" signal and the stage of the protocol. -/

namespace Sys2Proof.Machine

/-! ## Arming and waiting (R191, R196) -/

theorem exec_rxArm_of_idle {s : State} (h : s.hostop = .idle) :
    exec .rxArm s = .next (returnHost (armReceive s) .ok) := by
  change execRxArm s = _
  rw [execRxArm, hostStep_idle h, finish]

/-- Settles O27: nothing but the guard of R35 stands before the four writes, whatever the stage. -/
theorem rxArmClearsTheSignalAndArms : Obligations.RxArmClearsTheSignalAndArms := by
  refine ⟨fun r hop => ?decoded, fun s hidle => exec_rxArm_of_idle hidle⟩
  case decoded =>
    change decodeCommand r = _
    rw [decodeCommand, hop]
    rfl

theorem exec_rxWait_of_idle {s : State} (h : s.hostop = .idle) : exec .rxWait s = .next (startWait s) := by
  change execRxWait s = _
  rw [execRxWait, hostStep_idle h]

/-- Settles O32: nothing but the guard of R35 stands before the start step. -/
theorem rxWaitStartsTheWait : Obligations.RxWaitStartsTheWait := by
  refine ⟨fun r hop => ?decoded, fun s hidle => exec_rxWait_of_idle hidle⟩
  case decoded =>
    change decodeCommand r = _
    rw [decodeCommand, hop]
    rfl

/-! ## One byte of the line and an idle line (R194, R195) -/

/-- A byte below the index space of `RXBUF` is stored and counted while a receive is armed. -/
theorem eventRx_of_armed {s : State} (harmed : s.rxArmed = true) (hlt : s.rxLen < s.cfg.frameCap) (b : Byte) :
    eventRx b s = .next (countReceived { s with rxbuf := s.rxbuf.write s.rxLen b }) := by
  rw [eventRx, receiveByte_ok.2 (.inr ⟨harmed, hlt, rfl⟩), withValue_of_ok]

theorem eventRx_of_unarmed {s : State} (h : s.rxArmed = false) (b : Byte) : eventRx b s = .next s := by
  rw [eventRx, receiveByte_ok.2 (.inl ⟨h, rfl⟩), withValue_of_ok]

/-- A byte that leaves room in `RXBUF` is stored and counted, and the receive stays armed. -/
theorem eventRx_of_room {s : State} (harmed : s.rxArmed = true) (hroom : s.rxLen + 1 < s.cfg.frameCap) (b : Byte) :
    eventRx b s = .next { s with rxbuf := s.rxbuf.write s.rxLen b, rxLen := s.rxLen + 1 } := by
  rw [eventRx_of_armed harmed (by omega), countReceived_eq]
  simp only [if_neg (Nat.ne_of_lt hroom)]

/-- The byte that fills `RXBUF` completes the receive. -/
theorem eventRx_of_last {s : State} (harmed : s.rxArmed = true) (hlast : s.rxLen + 1 = s.cfg.frameCap) (b : Byte) :
    eventRx b s = .next { s with rxbuf := s.rxbuf.write s.rxLen b, rxLen := s.cfg.frameCap,
                                 frameArrived := true, rxArmed := false } := by
  rw [eventRx_of_armed harmed (by omega), countReceived_eq]
  simp only [hlast, if_true]

/-- A write of one byte leaves every index but its own alone. -/
theorem Memory.sameOutside_write (m : Memory) (a : Nat) (b : Byte) : m.sameOutside (m.write a b) a 1 :=
  Memory.sameOutside_writeBytes m a (bs := [b]) rfl

/-- Settles O28, by the three cases of a byte: dropped, stored with room left, stored at the last index. -/
theorem receivedByteIsStoredWhileArmed : Obligations.ReceivedByteIsStoredWhileArmed := by
  intro s b
  refine ⟨fun hunarmed => eventRx_of_unarmed hunarmed b, fun harmed hroom => ?room, fun harmed hlast => ?last⟩
  case room =>
    exact ⟨_, eventRx_of_room harmed hroom b, rfl, Memory.read_write_same _ _ _, Memory.sameOutside_write _ _ _⟩
  case last =>
    exact ⟨_, eventRx_of_last harmed hlast b, rfl, Memory.read_write_same _ _ _, Memory.sameOutside_write _ _ _⟩

theorem eventIdle_of_received {s : State} (harmed : s.rxArmed = true) (hpos : 0 < s.rxLen) :
    eventIdle s = .next (completeReceive s) := if_pos ⟨harmed, hpos⟩

/-- Settles O29, by the condition of R195. -/
theorem idleCompletesANonEmptyReceive : Obligations.IdleCompletesANonEmptyReceive := by
  refine fun s => ⟨eventIdle_of_received, fun hnone => if_neg fun ⟨harmed, hpos⟩ => ?_⟩
  obtain hunarmed | hempty := hnone
  · rw [hunarmed] at harmed; cases harmed
  · exact Nat.ne_of_gt hpos hempty

/-! ## The rows that are bytes on the line (R62, R194) -/

/-- Bytes that leave room in `RXBUF` are stored from `RX_LEN` upwards and counted. -/
theorem receiveBytes_of_room : ∀ {bs : List Byte} {s : State}, s.rxArmed = true →
    s.rxLen + bs.length < s.cfg.frameCap →
    receiveBytes bs s =
      .next { s with rxbuf := s.rxbuf.writeBytes s.rxLen bs, rxLen := s.rxLen + bs.length }
  | [], _, _, _ => rfl
  | b :: bs, s, harmed, hroom => by
    rw [List.length_cons] at hroom
    rw [receiveBytes_cons, eventRx_of_room harmed (by omega), andThen_of_next,
      receiveBytes_of_room (s := { s with rxbuf := _, rxLen := s.rxLen + 1 }) harmed
        (show s.rxLen + 1 + bs.length < s.cfg.frameCap by omega)]
    simp only [Memory.writeBytes, List.length_cons, Nat.add_assoc, Nat.add_comm 1]

/-- Bytes that reach the end of `RXBUF` are stored as far as they fit, and the rest are dropped: the byte that fills the
buffer has completed the receive. -/
theorem receiveBytes_of_full : ∀ {bs : List Byte} {s : State}, s.rxArmed = true → s.rxLen < s.cfg.frameCap →
    s.cfg.frameCap ≤ s.rxLen + bs.length →
    receiveBytes bs s =
      .next { s with rxbuf := s.rxbuf.writeBytes s.rxLen (bs.take (s.cfg.frameCap - s.rxLen))
                     rxLen := s.cfg.frameCap, frameArrived := true, rxArmed := false }
  | [], s, _, hlt, hfull => absurd hfull (Nat.not_le.2 hlt)
  | b :: bs, s, harmed, hlt, hfull => by
    rw [List.length_cons] at hfull
    obtain ⟨n, hn⟩ : ∃ n, s.cfg.frameCap - s.rxLen = n + 1 := ⟨s.cfg.frameCap - s.rxLen - 1, by omega⟩
    rw [receiveBytes_cons, hn, List.take_succ_cons, Memory.writeBytes]
    by_cases hlast : s.rxLen + 1 = s.cfg.frameCap
    · obtain rfl : n = 0 := by omega
      rw [eventRx_of_last harmed hlast, andThen_of_next, receiveBytes_unarmed rfl, List.take_zero, Memory.writeBytes]
    · have hrest : s.cfg.frameCap - (s.rxLen + 1) = n := by omega
      rw [eventRx_of_room harmed (by omega), andThen_of_next,
        receiveBytes_of_full (s := { s with rxbuf := _, rxLen := s.rxLen + 1 }) harmed
          (show s.rxLen + 1 < s.cfg.frameCap by omega)
          (show s.cfg.frameCap ≤ s.rxLen + 1 + bs.length by omega)]
      simp only [hrest]

/-- A row whose word is bytes of the line is their arrival (log entry 9). -/
theorem exec_of_encode_line {i : Instr} {bs : List Byte} (h : encode i = .line bs) (s : State) :
    exec i s = receiveBytes bs s := by
  cases i
  case rbWrite port v => cases port <;> cases h
  case reqRss | reqWss | reqRsb | reqWsb | respAck | respNak | ctlEnq | ctlAck | ctlNak | ctlEot | ctlEtx =>
    cases h; rfl
  all_goals cases h

/-- Settles O30: the row is the arrival of its bytes, which are dropped, stored whole, or cut at the end of the
buffer. -/
theorem wireRowsArriveByteAfterByte : Obligations.WireRowsArriveByteAfterByte := by
  intro s i bs hrow
  rw [exec_of_encode_line hrow]
  refine ⟨(runEvents_rx bs s).symm, fun hunarmed => receiveBytes_unarmed hunarmed bs, fun harmed hroom => ?room,
    fun harmed hlt hfull => ?full⟩
  case room =>
    exact ⟨_, receiveBytes_of_room harmed hroom, rfl, Memory.holds_writeBytes _ _ _,
      Memory.sameOutside_writeBytes _ _ rfl⟩
  case full =>
    exact ⟨_, receiveBytes_of_full harmed hlt hfull, rfl, Memory.holds_writeBytes _ _ _,
      Memory.sameOutside_writeBytes _ _ (List.length_take_of_le (by omega))⟩

/-! ## The completion of a wait (R197, R198) -/

/-- R198 with the elapsed time of R8 over the integers. -/
theorem waitTimedOut_iff_elapsedInt {s : State} (hop : s.hostop = .waiting) :
    waitTimedOut s ↔ s.frameArrived = false ∧ (s.cfg.rxTimeoutMs : Int) ≤ elapsedInt s.cfg s.now s.rxT0 := by
  rw [elapsedInt_eq_elapsed, Int.ofNat_le]
  exact and_iff_right hop

/-- Settles O33: during a wait the completion steps of a send are not enabled, so the poll is one of the other two. -/
theorem waitCompletesOrTimesOut : Obligations.WaitCompletesOrTimesOut := by
  intro s hop
  refine ⟨fun harr => ⟨hostPoll_of_waitDone ⟨hop, harr⟩, fun hinv => ?received⟩,
    fun harr hdue => hostPoll_of_waitTimedOut ((waitTimedOut_iff_elapsedInt hop).2 ⟨harr, hdue⟩), fun t h hidle => ?only⟩
  case received =>
    obtain ⟨-, -, -, -, ⟨-, -, -, hflag⟩, -⟩ := hinv
    obtain ⟨-, hpos⟩ := hflag harr
    exact hpos
  case only =>
    obtain ⟨hs, -⟩ | ⟨hs, -⟩ | ⟨-, harr⟩ | ht := hostMayReturn_of_hostPoll h hidle
    case inr.inr.inl => exact .inl harr
    case inr.inr.inr => exact .inr ((waitTimedOut_iff_elapsedInt hop).1 ht)
    all_goals rw [hop] at hs; cases hs

/-- What the HOST's poll can do: one of the four completion steps, or nothing. -/
theorem eventHostPoll_next {s t : State} (h : eventHostPoll s = .next t) :
    (sendDone s ∧ t = completeSend s) ∨ (sendTimedOut s ∧ t = timeoutSend s) ∨
    (waitDone s ∧ t = completeWait s) ∨ (waitTimedOut s ∧ t = timeoutWait s) ∨ t = s := by
  unfold eventHostPoll at h
  split at h
  case h_1 => cases h
  case h_2 =>
    split at h
    case isTrue hd => cases h; exact .inl ⟨hd, rfl⟩
    case isFalse =>
      split at h
      case isTrue ht => cases h; exact .inr (.inl ⟨ht, rfl⟩)
      case isFalse => cases h; exact .inr (.inr (.inr (.inr rfl)))
  case h_3 =>
    split at h
    case isTrue hd => cases h; exact .inr (.inr (.inl ⟨hd, rfl⟩))
    case isFalse =>
      split at h
      case isTrue ht => cases h; exact .inr (.inr (.inr (.inl ⟨ht, rfl⟩)))
      case isFalse => cases h; exact .inr (.inr (.inr (.inr rfl)))

/-! ## What leaves the receive side and the stage alone -/

/-- Two states agree on the receive side and on the stage of the protocol. -/
def SameReceiver (s t : State) : Prop :=
  t.rxbuf = s.rxbuf ∧ t.rxLen = s.rxLen ∧ t.rxArmed = s.rxArmed ∧ t.frameArrived = s.frameArrived ∧ t.sync = s.sync

theorem SameReceiver.refl (s : State) : SameReceiver s s := ⟨rfl, rfl, rfl, rfl, rfl⟩

theorem SameReceiver.frameArrived {s t : State} (h : SameReceiver s t) : t.frameArrived = s.frameArrived := by
  obtain ⟨-, -, -, harr, -⟩ := h
  exact harr

theorem SameReceiver.sync {s t : State} (h : SameReceiver s t) : t.sync = s.sync := by
  obtain ⟨-, -, -, -, hsync⟩ := h
  exact hsync

theorem compactFrame_sameReceiver {s t : State} {st : Status} (h : compactFrame s = .ok (t, st)) :
    SameReceiver s t := by
  rw [compactFrame_frame h]
  exact .refl s

theorem encodeOperation_sameReceiver {c : Command} {s t : State} (h : encodeOperation c s = .next t) :
    SameReceiver s t := by
  obtain ⟨-, h⟩ := hostStep_next.1 h
  obtain ⟨u, hu, h⟩ := andThen_next.1 h
  obtain ⟨-, -, rfl⟩ := encodeFrame_next.1 hu
  obtain rfl := finish_next.1 h
  exact .refl s

theorem ringWrite_sameReceiver {port : Port} {v : Byte} {s t : State} (h : ringWrite port v s = .next t) :
    SameReceiver s t := by
  obtain ⟨-, rfl⟩ | ⟨-, -, rfl⟩ := ringWrite_next.1 h <;> cases port <;> exact .refl s

/-- Of the operations of the two ports only `RX.ARM` and `RX.WAIT` touch the receive side or the stage. -/
theorem exec_sameReceiver {i : Instr} {s t : State} (hport : ¬ ∃ bs, encode i = .line bs) (harm : i ≠ .rxArm)
    (hwait : i ≠ .rxWait) (h : exec i s = .next t) : SameReceiver s t := by
  cases i <;> simp only [exec] at h
  case encRss | encWss | encRsb | encWsb => exact encodeOperation_sameReceiver h
  case compact =>
    obtain ⟨-, h⟩ := hostStep_next.1 h
    obtain ⟨⟨v, st⟩, hv, h⟩ := withValue_next.1 h
    obtain rfl := finish_next.1 h
    have hsv := compactFrame_sameReceiver hv
    exact hsv
  case send =>
    obtain ⟨-, h⟩ := hostStep_next.1 h
    cases h; exact .refl s
  case dispatch =>
    obtain ⟨out, -, rfl⟩ := execDispatch_next h
    exact .refl s
  case rxArm => exact absurd rfl harm
  case rxWait => exact absurd rfl hwait
  case decodeOp =>
    obtain ⟨-, h⟩ := hostStep_next.1 h
    obtain ⟨bs, -, h⟩ := withValue_next.1 h
    cases h
    unfold decodeReturn
    split <;> exact .refl s
  case rbWrite port v =>
    cases port
    case host => exact ringWrite_sameReceiver (hostStep_next.1 h).2
    case producer => exact ringWrite_sameReceiver h
  case rbRead =>
    obtain ⟨-, h⟩ := hostStep_next.1 h
    split at h
    · obtain rfl := finish_next.1 h; exact .refl s
    · obtain ⟨v, -, h⟩ := withValue_next.1 h
      obtain rfl := finish_next.1 h
      exact .refl s
  case rbFlush =>
    obtain ⟨-, h⟩ := hostStep_next.1 h
    obtain rfl := finish_next.1 h
    exact .refl s
  all_goals exact absurd ⟨_, rfl⟩ hport

/-- What an instruction does to the receive side and the stage: `RX.ARM` arms, `RX.WAIT` waits, a row of the line
arrives as its bytes, and every other leaves them alone. -/
theorem exec_receiver {i : Instr} {s t : State} (h : exec i s = .next t) :
    (i = .rxArm ∧ s.hostop = .idle ∧ t = returnHost (armReceive s) .ok) ∨
    (i = .rxWait ∧ s.hostop = .idle ∧ t = startWait s) ∨
    (∃ bs, encode i = .line bs ∧ receiveBytes bs s = .next t) ∨ SameReceiver s t := by
  by_cases hrow : ∃ bs, encode i = .line bs
  · obtain ⟨bs, hbs⟩ := hrow
    exact .inr (.inr (.inl ⟨bs, hbs, (exec_of_encode_line hbs s).symm.trans h⟩))
  · by_cases harm : i = .rxArm
    · subst harm
      obtain ⟨hidle, h⟩ := hostStep_next.1 (show execRxArm s = _ from h)
      exact .inl ⟨rfl, hidle, (finish_next.1 h).symm⟩
    · by_cases hwait : i = .rxWait
      · subst hwait
        obtain ⟨hidle, h⟩ := hostStep_next.1 (show execRxWait s = _ from h)
        cases h
        exact .inr (.inl ⟨rfl, hidle, rfl⟩)
      · exact .inr (.inr (.inr (exec_sameReceiver hrow harm hwait h)))

/-! ## The writers of SYNC (R201, R34) -/

/-- Bytes of the line do not move the stage. -/
theorem receiveBytes_sync {bs : List Byte} {s t : State} (h : receiveBytes bs s = .next t) : t.sync = s.sync := by
  refine receiveBytes_keeps (P := fun u => u.sync = s.sync) (fun {b u v} hu hb => ?_) rfl h
  rw [receiveByte_frame hb]
  exact hu

/-- Of the events only the HOST's poll and the reset move the stage. -/
theorem runEvent_sync {e : Event} {s t : State} (hpoll : e ≠ .hostPoll) (hreset : e ≠ .reset)
    (h : runEvent e s = .next t) : t.sync = s.sync := by
  cases e
  case txAccept =>
    obtain ⟨-, b, -, rfl⟩ := eventTxAccept_next h
    rfl
  case rx b =>
    rw [← receiveBytes_singleton] at h
    exact receiveBytes_sync h
  case idle =>
    simp only [runEvent, eventIdle] at h
    split at h <;> cases h <;> rfl
  case tick => cases h; rfl
  case hostPoll => exact absurd rfl hpoll
  case reset => exact absurd rfl hreset

/-- How the HOST's poll moves the stage: it is the completion of a send from `ARMED`, or the completion of a wait. -/
theorem eventHostPoll_sync {s t : State} (h : eventHostPoll s = .next t) :
    t.sync = s.sync ∨
    (t.sync = .sent ∧ s.sync = .armed ∧ s.hostop = .sending) ∨
    (t.sync = .completed ∧ waitDone s) ∨ (t.sync = .timedOut ∧ waitTimedOut s) := by
  obtain ⟨⟨hop, -⟩, rfl⟩ | ⟨-, rfl⟩ | ⟨hd, rfl⟩ | ⟨ht, rfl⟩ | rfl := eventHostPoll_next h
  · by_cases harmed : s.sync = .armed
    · exact .inr (.inl ⟨if_pos harmed, harmed, hop⟩)
    · exact .inl (if_neg harmed)
  · exact .inl rfl
  · exact .inr (.inr (.inl ⟨rfl, hd⟩))
  · exact .inr (.inr (.inr ⟨rfl, ht⟩))
  · exact .inl rfl

/-- Settles O52, by the kind of step: the poll and the reset among the events, `RX.ARM` and `RX.WAIT` among the
instructions; that a wait in progress has the stage `WAITING` is the invariant's. -/
theorem syncMovesOnlyByTheTable : Obligations.SyncMovesOnlyByTheTable := by
  intro s t hinv e hmoved
  obtain ⟨-, -, -, -, -, hwaiting, -⟩ := hinv
  obtain ⟨-, hs⟩ | ⟨ev, rest, hev, hs⟩ | ⟨i, rest, hi, hs⟩ | ⟨bs, rest, hs⟩ | ⟨r, hs⟩ := step_kinds s <;> rw [hs] at e
  case inl => cases e; exact absurd rfl hmoved
  case inr.inl =>
    by_cases hreset : ev = .reset
    · subst hreset
      cases e
      exact hev
    · by_cases hpoll : ev = .hostPoll
      · subst hpoll
        obtain hsame | ⟨hto, harmed, hop⟩ | ⟨hto, hop, harr⟩ | ⟨hto, hop, harr, -⟩ := eventHostPoll_sync e
        · exact absurd hsame hmoved
        · rw [hto]; exact ⟨hev, harmed, hop⟩
        · rw [hto]; exact ⟨hev, hwaiting.1 hop, harr⟩
        · rw [hto]; exact ⟨hev, hwaiting.1 hop, harr⟩
      · have hsame := runEvent_sync hpoll hreset e
        exact absurd hsame hmoved
  case inr.inr.inl =>
    obtain ⟨rfl, hidle, rfl⟩ | ⟨rfl, hidle, rfl⟩ | ⟨bs, -, hbs⟩ | hsame := exec_receiver e
    · exact ⟨hi, hidle⟩
    · exact ⟨hi, hidle⟩
    · have hsame := receiveBytes_sync hbs
      exact absurd hsame hmoved
    · exact absurd hsame.sync hmoved
  case inr.inr.inr.inl =>
    have hsame := receiveBytes_sync e
    exact absurd hsame hmoved
  case inr.inr.inr.inr => cases e

/-! ## The writers of FRAME_ARRIVED (R202) -/

/-- A byte of the line never clears the signal. -/
theorem receiveByte_frameArrived {b : Byte} {s t : State} (h : receiveByte b s = .ok t) :
    t.frameArrived = s.frameArrived ∨ t.frameArrived = true := by
  obtain ⟨-, rfl⟩ | ⟨-, -, rfl⟩ := receiveByte_ok.1 h
  · exact .inl rfl
  · rw [countReceived_eq]
    by_cases hlast : s.rxLen + 1 = s.cfg.frameCap
    · exact .inr (if_pos hlast)
    · exact .inl (if_neg hlast)

/-- Bytes of the line leave the signal, or set it from a live receive. -/
theorem receiveBytes_frameArrived {bs : List Byte} {s t : State} (h : receiveBytes bs s = .next t) :
    t.frameArrived = s.frameArrived ∨ (t.frameArrived = true ∧ s.rxArmed = true) := by
  cases harmed : s.rxArmed
  case false =>
    rw [receiveBytes_unarmed harmed] at h
    cases h
    exact .inl rfl
  case true =>
    have hkept : t.frameArrived = s.frameArrived ∨ t.frameArrived = true :=
      receiveBytes_keeps (P := fun u => u.frameArrived = s.frameArrived ∨ u.frameArrived = true)
        (fun hu hb => (receiveByte_frameArrived hb).elim (fun hsame => hsame ▸ hu) .inr) (.inl rfl) h
    exact hkept.imp_right fun hset => ⟨hset, rfl⟩

/-- What the line brings to the receiver: an idle line, a byte, or the bytes of a request. -/
def IsReception (x : Stimulus) : Prop :=
  x = .event .idle ∨ (∃ b, x = .event (.rx b)) ∨ ∃ bs, x = .request (.line bs)

/-- What withdraws the signal: `RX.ARM` and the reset. -/
def IsWithdrawal (x : Stimulus) : Prop :=
  (∃ r, x = .request r ∧ decode r = .ok .rxArm) ∨ x = .event .reset

/-- From `s` to `t` the signal is left, is set by a reception during a live receive, or is cleared by a withdrawal. -/
def SignalMove (x : Stimulus) (s t : State) : Prop :=
  t.frameArrived = s.frameArrived ∨
  (t.frameArrived = true ∧ s.rxArmed = true ∧ IsReception x) ∨ (t.frameArrived = false ∧ IsWithdrawal x)

theorem signalMove_of_receiveBytes {x : Stimulus} {bs : List Byte} {s t : State} (hx : IsReception x)
    (h : receiveBytes bs s = .next t) : SignalMove x s t := by
  obtain hsame | ⟨hset, harmed⟩ := receiveBytes_frameArrived h
  · exact .inl hsame
  · exact .inr (.inl ⟨hset, harmed, hx⟩)

theorem signalMove_of_runEvent {e : Event} {s t : State} (h : runEvent e s = .next t) :
    SignalMove (.event e) s t := by
  cases e
  case txAccept =>
    obtain ⟨-, b, -, rfl⟩ := eventTxAccept_next h
    exact .inl rfl
  case rx b =>
    rw [← receiveBytes_singleton] at h
    exact signalMove_of_receiveBytes (.inr (.inl ⟨b, rfl⟩)) h
  case idle =>
    simp only [runEvent, eventIdle] at h
    split at h
    case isTrue hlive => cases h; exact .inr (.inl ⟨rfl, hlive.1, .inl rfl⟩)
    case isFalse => cases h; exact .inl rfl
  case tick => cases h; exact .inl rfl
  case hostPoll =>
    obtain ⟨-, rfl⟩ | ⟨-, rfl⟩ | ⟨-, rfl⟩ | ⟨-, rfl⟩ | rfl := eventHostPoll_next h <;> exact .inl rfl
  case reset => cases h; exact .inr (.inr ⟨rfl, .inr rfl⟩)

/-- A sequence of decoding steps answers only where its first step does. -/
theorem decoded_of_bind {α β : Type} {x : Except DecodeError α} {f : α → Except DecodeError β} {b : β}
    (h : x >>= f = .ok b) : ∃ a, f a = .ok b := by
  cases x with
  | error e => cases h
  | ok a => exact ⟨a, h⟩

/-- The two ports present operations (R120): a row of the line is decoded from bytes of the line alone. -/
theorem line_of_decode_row {r : Request} {i : Instr} {bs : List Byte} (hd : decode r = .ok i)
    (hrow : encode i = .line bs) : ∃ bytes, r = .line bytes := by
  cases r with
  | line bytes => exact ⟨bytes, rfl⟩
  | producer op v =>
    change decodeProducer op v = _ at hd
    unfold decodeProducer at hd
    split at hd <;> cases hd
    cases hrow
  | command r =>
    change decodeCommand r = _ at hd
    unfold decodeCommand at hd
    split at hd
    case h_1 | h_2 | h_3 | h_4 | h_7 => obtain ⟨_, hd⟩ := decoded_of_bind hd; cases hd; cases hrow
    case h_14 => cases hd
    all_goals cases hd; cases hrow

theorem signalMove_of_request {r : Request} {s t : State} (h : runStimulus (.request r) s = .next t) :
    SignalMove (.request r) s t := by
  cases hd : decode r with
  | ok i =>
    rw [runStimulus_of_decode_ok hd] at h
    obtain ⟨rfl, -, rfl⟩ | ⟨-, -, rfl⟩ | ⟨bs, hrow, hbs⟩ | hsame := exec_receiver h
    · exact .inr (.inr ⟨rfl, .inl ⟨r, rfl, hd⟩⟩)
    · exact .inl rfl
    · obtain ⟨bytes, rfl⟩ := line_of_decode_row hd hrow
      exact signalMove_of_receiveBytes (.inr (.inr ⟨bytes, rfl⟩)) hbs
    · exact .inl hsame.frameArrived
  | error e =>
    rw [runStimulus_of_decode_error hd] at h
    cases e
    case notAFrame =>
      cases r with
      | line bytes => exact signalMove_of_receiveBytes (.inr (.inr ⟨bytes, rfl⟩)) h
      | command | producer => cases h; exact .inl rfl
    all_goals cases h

theorem signalMove_of_runStimulus {x : Stimulus} {s t : State} (h : runStimulus x s = .next t) : SignalMove x s t := by
  cases x with
  | event e => exact signalMove_of_runEvent h
  | request r => exact signalMove_of_request h

/-- Settles O54, by the head of the schedule and what it does to the signal. -/
theorem frameArrivedHasItsWritersOnly : Obligations.FrameArrivedHasItsWritersOnly := by
  intro s t e
  obtain ⟨-, hs⟩ | ⟨x, rest, hp, hs⟩ := step_cases s <;> rw [hs] at e
  case inl =>
    cases e
    exact ⟨fun hclear hset => by simp [hclear] at hset, fun hset hclear => by simp [hset] at hclear⟩
  case inr =>
    obtain hsame | ⟨hset', harmed, hx⟩ | ⟨hclear', hx⟩ := signalMove_of_runStimulus e
    · have hsame : t.frameArrived = s.frameArrived := hsame
      exact ⟨fun hclear hset => by simp [hsame, hclear] at hset, fun hset hclear => by simp [hsame, hset] at hclear⟩
    · refine ⟨fun _ _ => ⟨harmed, ?_⟩, fun _ hclear => by simp [hset'] at hclear⟩
      obtain rfl | ⟨b, rfl⟩ | ⟨bs, rfl⟩ := hx
      · exact .inl ⟨rest, hp⟩
      · exact .inr (.inl ⟨b, rest, hp⟩)
      · exact .inr (.inr ⟨bs, rest, hp⟩)
    · refine ⟨fun _ hset => by simp [hclear'] at hset, fun _ _ => ?_⟩
      obtain ⟨r, rfl, hd⟩ | rfl := hx
      · exact .inl ⟨r, rest, hp, hd⟩
      · exact .inr ⟨rest, hp⟩

end Sys2Proof.Machine
end

section
/-! The response decoder (44_response_decoder.md): the parse of a received buffer fails in exactly the causes of R227
and gives back the fields of a response frame; `DECODE` returns that parse, and so the payload of a frame that arrived. -/

namespace Sys2Proof

/-! ## Characters that no nibble gives (R224) -/

/-- The complement of `isNibChar` as R227 words it. -/
theorem isNibChar_eq_false_iff {c : Byte} : isNibChar c = false ↔ c.toNat < 0x30 ∨ 0x3F < c.toNat := by
  rw [← Bool.not_eq_true, isNibChar_iff]
  omega

/-- `unnib` fails exactly at a bad character in one of its two places. -/
theorem unnib_eq_none_iff {c1 c0 : Byte} : unnib c1 c0 = none ↔ isNibChar c1 = false ∨ isNibChar c0 = false := by
  rw [unnib, ← Bool.and_eq_false_iff]
  cases isNibChar c1 && isNibChar c0 <;> simp

theorem badNibble_iff {bs : List Byte} {i : Nat} {c : Byte} (h : bs[i]? = some c) :
    Machine.badNibble bs i ↔ isNibChar c = false := by
  rw [isNibChar_eq_false_iff]
  constructor
  · rintro ⟨c', hc', hbad⟩
    rw [h] at hc'
    cases hc'
    exact hbad
  · exact fun hbad => ⟨c, h, hbad⟩

/-! ## The success response (R221) -/

theorem parseAck_of_short {e : Byte} {bs : List Byte} (h : bs.length < 9) : parseAck e bs = none := by
  unfold parseAck
  split
  · simp only [List.length_cons] at h; omega
  · rfl

/-- A buffer of at least nine bytes after its header splits into the fixed fields of R105 and what follows them. -/
theorem exists_ackFields {bs : List Byte} (h : 9 ≤ bs.length) :
    ∃ s1 s0 command ctype1 ctype2 b1 b0 d1 d0 rest,
      bs = s1 :: s0 :: command :: ctype1 :: ctype2 :: b1 :: b0 :: d1 :: d0 :: rest := by
  match bs, h with
  | s1 :: s0 :: command :: ctype1 :: ctype2 :: b1 :: b0 :: d1 :: d0 :: rest, _ =>
    exact ⟨s1, s0, command, ctype1, ctype2, b1, b0, d1, d0, rest, rfl⟩

/-- On the fields of a success response the parse fails where `unnib` does, or where `RESP_END` does not follow the
counted payload (R225). -/
theorem parseAck_fields_eq_none_iff {e s1 s0 command ctype1 ctype2 b1 b0 d1 d0 : Byte} {rest : List Byte} :
    parseAck e (s1 :: s0 :: command :: ctype1 :: ctype2 :: b1 :: b0 :: d1 :: d0 :: rest) = none ↔
      unnib s1 s0 = none ∨ unnib b1 b0 = none ∨ unnib d1 d0 = none ∨
        ∃ n, unnib d1 d0 = some n ∧ rest[n.toNat]? ≠ some e := by
  rw [parseAck]
  cases unnib s1 s0 with
  | none => exact iff_of_true rfl (.inl rfl)
  | some station =>
    cases unnib b1 b0 with
    | none => exact iff_of_true rfl (.inr (.inl rfl))
    | some blocks =>
      cases unnib d1 d0 with
      | none => exact iff_of_true rfl (.inr (.inr (.inl rfl)))
      | some dcount => simp

/-- Past the end of a sequence there is no terminator either. -/
theorem short_or_getElem?_ne_iff {bs : List Byte} {k : Nat} {e : Byte} :
    (bs.length < k + 1 ∨ k + 1 ≤ bs.length ∧ bs[k]? ≠ some e) ↔ bs[k]? ≠ some e := by
  constructor
  · rintro (hshort | ⟨-, hne⟩)
    · rw [List.getElem?_eq_none (by omega)]
      exact (Option.some_ne_none e).symm
    · exact hne
  · exact fun hne => (Nat.lt_or_ge bs.length (k + 1)).imp_right fun hlen => ⟨hlen, hne⟩

/-- Causes (6) and (7) of R227 together: `RESP_END` does not stand after the counted payload. -/
theorem terminatorCauses_iff {e : Byte} {bs : List Byte} :
    ((∃ d1 d0 n, bs[8]? = some d1 ∧ bs[9]? = some d0 ∧ unnib d1 d0 = some n ∧ bs.length < 11 + n.toNat) ∨
      ∃ d1 d0 n, bs[8]? = some d1 ∧ bs[9]? = some d0 ∧ unnib d1 d0 = some n ∧
        11 + n.toNat ≤ bs.length ∧ bs[10 + n.toNat]? ≠ some e) ↔
      ∃ d1 d0 n, bs[8]? = some d1 ∧ bs[9]? = some d0 ∧ unnib d1 d0 = some n ∧ bs[10 + n.toNat]? ≠ some e := by
  have hnext (n : Byte) : 11 + n.toNat = 10 + n.toNat + 1 := by omega
  simp only [← exists_or, ← and_or_left, hnext, short_or_getElem?_ne_iff]

/-- The causes of R227 that a success response can meet: (3), (5), and (6) with (7). -/
theorem malformedCause_ack_iff {e : Byte} {bs : List Byte} (hack : bs[0]? = some Config.ACK) :
    Machine.malformedCause e bs ↔ bs.length < 10 ∨ (∃ i ∈ [1, 2, 6, 7, 8, 9], Machine.badNibble bs i) ∨
      ∃ d1 d0 n, bs[8]? = some d1 ∧ bs[9]? = some d0 ∧ unnib d1 d0 = some n ∧ bs[10 + n.toNat]? ≠ some e := by
  have hne : bs ≠ [] := by rintro rfl; cases hack
  rw [← terminatorCauses_iff]
  simp [Machine.malformedCause, hack, hne, Config.ACK]

/-- The causes of R227 on the same fields are the same. -/
theorem malformedCause_ackFields_iff {e s1 s0 command ctype1 ctype2 b1 b0 d1 d0 : Byte} {rest : List Byte} :
    Machine.malformedCause e
        (Config.ACK :: s1 :: s0 :: command :: ctype1 :: ctype2 :: b1 :: b0 :: d1 :: d0 :: rest) ↔
      unnib s1 s0 = none ∨ unnib b1 b0 = none ∨ unnib d1 d0 = none ∨
        ∃ n, unnib d1 d0 = some n ∧ rest[n.toNat]? ≠ some e := by
  rw [malformedCause_ack_iff rfl]
  simp [unnib_eq_none_iff, badNibble_iff, or_assoc, Nat.add_comm 10]

theorem parseAck_eq_none_iff {e : Byte} {bs : List Byte} :
    parseAck e bs = none ↔ Machine.malformedCause e (Config.ACK :: bs) := by
  obtain hshort | hlen := Nat.lt_or_ge bs.length 9
  · exact iff_of_true (parseAck_of_short hshort)
      ((malformedCause_ack_iff rfl).2 (.inl (Nat.succ_lt_succ hshort)))
  · obtain ⟨s1, s0, command, ctype1, ctype2, b1, b0, d1, d0, rest, rfl⟩ := exists_ackFields hlen
    rw [parseAck_fields_eq_none_iff, malformedCause_ackFields_iff]

/-! ## The error response (R222) -/

theorem parseNak_of_short {bs : List Byte} (h : bs.length < 11) : parseNak bs = none := by
  unfold parseNak
  split
  · simp only [List.length_cons] at h; omega
  · rfl

/-- A buffer of at least eleven bytes after its header splits into the fields of R106 and what follows them. -/
theorem exists_nakFields {bs : List Byte} (h : 11 ≤ bs.length) :
    ∃ s1 s0 command ctype1 ctype2 b1 b0 err1 err2 err3 err4 rest,
      bs = s1 :: s0 :: command :: ctype1 :: ctype2 :: b1 :: b0 :: err1 :: err2 :: err3 :: err4 :: rest := by
  match bs, h with
  | s1 :: s0 :: command :: ctype1 :: ctype2 :: b1 :: b0 :: err1 :: err2 :: err3 :: err4 :: rest, _ =>
    exact ⟨s1, s0, command, ctype1, ctype2, b1, b0, err1, err2, err3, err4, rest, rfl⟩

theorem parseNak_fields_eq_none_iff {s1 s0 command ctype1 ctype2 b1 b0 err1 err2 err3 err4 : Byte}
    {rest : List Byte} :
    parseNak (s1 :: s0 :: command :: ctype1 :: ctype2 :: b1 :: b0 :: err1 :: err2 :: err3 :: err4 :: rest) = none ↔
      unnib s1 s0 = none ∨ unnib b1 b0 = none := by
  rw [parseNak]
  cases unnib s1 s0 with
  | none => exact iff_of_true rfl (.inl rfl)
  | some station =>
    cases unnib b1 b0 with
    | none => exact iff_of_true rfl (.inr rfl)
    | some blocks => simp

/-- The causes of R227 that an error response can meet: (4) and (5). -/
theorem malformedCause_nak_iff {e : Byte} {bs : List Byte} (hnak : bs[0]? = some Config.NAK) :
    Machine.malformedCause e bs ↔ bs.length < 12 ∨ ∃ i ∈ [1, 2, 6, 7], Machine.badNibble bs i := by
  have hne : bs ≠ [] := by rintro rfl; cases hnak
  simp [Machine.malformedCause, hnak, hne, Config.NAK]

theorem malformedCause_nakFields_iff {e s1 s0 command ctype1 ctype2 b1 b0 err1 err2 err3 err4 : Byte}
    {rest : List Byte} :
    Machine.malformedCause e (Config.NAK ::
        s1 :: s0 :: command :: ctype1 :: ctype2 :: b1 :: b0 :: err1 :: err2 :: err3 :: err4 :: rest) ↔
      unnib s1 s0 = none ∨ unnib b1 b0 = none := by
  rw [malformedCause_nak_iff rfl]
  simp [unnib_eq_none_iff, badNibble_iff, or_assoc]

theorem parseNak_eq_none_iff {e : Byte} {bs : List Byte} :
    parseNak bs = none ↔ Machine.malformedCause e (Config.NAK :: bs) := by
  obtain hshort | hlen := Nat.lt_or_ge bs.length 11
  · exact iff_of_true (parseNak_of_short hshort)
      ((malformedCause_nak_iff rfl).2 (.inl (Nat.succ_lt_succ hshort)))
  · obtain ⟨s1, s0, command, ctype1, ctype2, b1, b0, err1, err2, err3, err4, rest, rfl⟩ := exists_nakFields hlen
    rw [parseNak_fields_eq_none_iff, malformedCause_nakFields_iff]

/-! ## The whole buffer (R220, R227) -/

/-- The parse fails in exactly the seven causes of R227, by the header. -/
theorem parseResponse_eq_none_iff {e : Byte} {bs : List Byte} :
    parseResponse e bs = none ↔ Machine.malformedCause e bs := by
  cases bs with
  | nil => exact iff_of_true rfl (.inl rfl)
  | cons h rest =>
    rw [parseResponse]
    split
    case isTrue hack => rw [hack]; exact parseAck_eq_none_iff
    case isFalse hack =>
      split
      case isTrue hnak => rw [hnak]; exact parseNak_eq_none_iff
      case isFalse hnak =>
        exact iff_of_true rfl
          (.inr (.inl ⟨fun he => hack (Option.some.inj he), fun he => hnak (Option.some.inj he)⟩))

/-! ## Response frames read back (R226, R228) -/

@[simp] theorem wireAck_length (f : AckFrame) : (wireAck f).length = 11 + f.data.length := by
  simp +arith [wireAck, nib]

/-- A success response ended by `RESP_END` parses to its fields, whatever follows it: the count locates the payload and
the terminator. -/
theorem parseResponse_wireAck {e : Byte} {f : AckFrame} (hlen : f.data.length ≤ 255) (hterm : termByte f.term = e)
    (more : List Byte) :
    parseResponse e (wireAck f ++ more) = some
      (.ack f.station f.command f.ctype1 f.ctype2 f.blocks (BitVec.ofNat 8 f.data.length) f.data) := by
  have hcount : (BitVec.ofNat 8 f.data.length).toNat = f.data.length := by rw [BitVec.toNat_ofNat]; omega
  have hpayload := Machine.payloadText_length f.data
  have hend : (payloadText f.data ++ e :: more)[f.data.length]? = some e := by
    rw [List.getElem?_append_right hpayload.le, hpayload, Nat.sub_self, List.getElem?_cons_zero]
  have hdata : (payloadText f.data ++ e :: more).take f.data.length = payloadText f.data :=
    List.take_left' hpayload
  simp only [wireAck, nib, hterm, List.cons_append, List.nil_append, List.append_assoc, parseResponse, if_true,
    parseAck, unnib_nib, hcount, hend, hdata, map_unshift0_payloadText]

/-- An error response parses to its fields, whatever follows it. -/
theorem parseResponse_wireNak (e : Byte) (f : NakFrame) (more : List Byte) :
    parseResponse e (wireNak f ++ more) = some
      (.nak f.station f.command f.ctype1 f.ctype2 f.blocks f.err1 f.err2 f.err3 f.err4) := by
  have hne : ¬ Config.NAK = Config.ACK := by decide
  simp only [wireNak, nib, List.cons_append, List.nil_append, parseResponse, if_neg hne, if_true, parseNak, unnib_nib]

end Sys2Proof

namespace Sys2Proof.Machine

/-! ## `DECODE` over a received buffer (R220) -/

/-- Over received bytes `DECODE` returns their parse and changes nothing else. -/
theorem exec_decodeOp_of_received {s : State} {bs : List Byte} (hidle : s.hostop = .idle) (hlen : s.rxLen = bs.length)
    (hcap : s.rxLen ≤ s.cfg.frameCap) (hholds : s.rxbuf.holds 0 bs) :
    exec .decodeOp s = .next (decodeReturn s (parseResponse s.cfg.respEnd bs)) := by
  have hread : readRange .rxbuf s 0 s.rxLen = .ok bs :=
    readRange_ok.2 ⟨.inr (by simpa using hcap), hlen.symm, fun j hj => hholds j (hlen ▸ hj)⟩
  change execDecode s = _
  rw [execDecode, hostStep_idle hidle, hread, withValue_of_ok]

/-- Settles O36: `DECODE` returns the parse, which fails in exactly the seven causes. -/
theorem decodeIsMalformedExactlyInTheSevenCauses : Obligations.DecodeIsMalformedExactlyInTheSevenCauses := by
  refine ⟨fun r hop => ?decoded, fun s bs hidle hlen hcap hholds => ?returned⟩
  case decoded =>
    change decodeCommand r = _
    rw [decodeCommand, hop]
    rfl
  case returned =>
    rw [exec_decodeOp_of_received hidle hlen (hlen ▸ hcap) hholds, ← parseResponse_eq_none_iff]
    cases parseResponse s.cfg.respEnd bs with
    | none => exact ⟨fun _ => rfl, fun h => absurd rfl h⟩
    | some r => exact ⟨fun h => (Option.some_ne_none r h).elim, fun _ => ⟨r, rfl⟩⟩

/-- Settles O37: the parse of the frame does not depend on what follows it. -/
theorem decodeReturnsTheFieldsOfTheResponse : Obligations.DecodeReturnsTheFieldsOfTheResponse := by
  refine ⟨fun s f more hidle hdata hterm hlen hcap hholds => ?ack, fun s f more hidle hlen hcap hholds => ?nak⟩
  case ack => rw [exec_decodeOp_of_received hidle hlen hcap hholds, parseResponse_wireAck hdata hterm]; rfl
  case nak => rw [exec_decodeOp_of_received hidle hlen hcap hholds, parseResponse_wireNak]; rfl

/-! ## A response that arrives (R228) -/

/-- Bytes that fit the buffer of an armed receive, and an idle line after them, leave the receive completed over them:
by the byte that fills the buffer (R194), or else by the idle line (R195). -/
theorem receiveBytes_then_idle {s : State} {bs : List Byte} (harmed : s.rxArmed = true) (hpos : 0 < bs.length)
    (hfits : s.rxLen + bs.length ≤ s.cfg.frameCap) :
    ∃ u, receiveBytes bs s = .next u ∧ eventIdle u = .next (completeReceive
      { s with rxbuf := s.rxbuf.writeBytes s.rxLen bs, rxLen := s.rxLen + bs.length }) := by
  obtain hroom | hfull := Nat.lt_or_eq_of_le hfits
  · exact ⟨_, receiveBytes_of_room harmed hroom, eventIdle_of_received harmed (Nat.add_pos_right _ hpos)⟩
  · refine ⟨_, receiveBytes_of_full harmed (by omega) hfull.ge, ?_⟩
    rw [List.take_of_length_le (by omega), ← hfull]
    exact if_neg fun ⟨harmed', _⟩ => Bool.false_ne_true harmed'

/-- Settles O38: the receive completes over the bytes of the frame, and `DECODE` reads its fields back from them. -/
theorem arrivedAckRoundTripsItsPayload : Obligations.ArrivedAckRoundTripsItsPayload := by
  intro s f _ hidle hdata hfits hterm
  obtain ⟨hdecodeAck, -⟩ := decodeReturnsTheFieldsOfTheResponse
  have hlength : 0 + (wireAck f).length = 11 + f.data.length := by rw [Nat.zero_add, wireAck_length]
  obtain ⟨u, harrive, hline⟩ := receiveBytes_then_idle (s := returnHost (armReceive s) .ok) (bs := wireAck f) rfl
    (by omega) (show 0 + (wireAck f).length ≤ s.cfg.frameCap by omega)
  refine ⟨_, u, _, exec_rxArm_of_idle hidle, harrive, hline, rfl, rfl, hlength,
    hdecodeAck _ f [] hidle hdata hterm ?length ?fits ?held⟩
  case length => rw [List.append_nil]; exact Nat.zero_add _
  case fits => exact (Nat.zero_add _).trans_le hfits
  case held => rw [List.append_nil]; exact Memory.holds_writeBytes _ 0 _

end Sys2Proof.Machine
end

section
/-! The ring buffer (45_ring_buffer.md): what the three operations do to the slots and the indices, and that over the
ring's content they are the operations of a bounded queue (R244). -/

namespace Sys2Proof.Machine

/-! ## The three operations (R241 to R243) -/

/-- A command record is decoded by the value of its operation code. -/
theorem decode_command_of_op {r : CommandRecord} {op : BitVec 4} (h : r.op = op) :
    decode (.command r) = decodeCommand { r with op := op } := by
  rw [← h]; rfl

/-- The PRODUCER's port has no guard, and the HOST's lets a ring write through while `HOSTOP` is `IDLE`. -/
theorem exec_rbWrite_of_open {s : State} {port : Port} (hopen : port = .producer ∨ s.hostop = .idle) (v : Byte) :
    exec (.rbWrite port v) s = ringWrite port v s := by
  cases port with
  | producer => rfl
  | host =>
    have hidle : s.hostop = .idle := hopen.resolve_left nofun
    change hostStep s (ringWrite .host v) = _
    rw [hostStep_idle hidle]

theorem ringWrite_of_full {s : State} (hf : ringFull s) (port : Port) (v : Byte) :
    ringWrite port v s = .next (returnAt port s .rbFull) := ringWrite_next.2 (.inl ⟨hf, rfl⟩)

theorem ringWrite_of_room {s : State} (hf : ¬ ringFull s) (hh : s.head < s.cfg.ringCap) (port : Port) (v : Byte) :
    ringWrite port v s = .next (returnAt port
      { s with ring := s.ring.write s.head v, head := nextSlot s.cfg s.head } .ok) :=
  ringWrite_next.2 (.inr ⟨hf, hh, rfl⟩)

theorem returnAt_ring (port : Port) (s : State) (st : Status) : (returnAt port s st).ring = s.ring := by
  cases port <;> rfl

theorem exec_rbRead_of_empty {s : State} (hidle : s.hostop = .idle) (he : ringEmpty s) :
    exec .rbRead s = .next (returnHost s .rbEmpty) := by
  change execRbRead s = _
  rw [execRbRead, hostStep_idle hidle, if_pos he, finish]

theorem exec_rbRead_of_written {s : State} {b : Byte} (hidle : s.hostop = .idle) (he : ¬ ringEmpty s)
    (ht : s.tail < s.cfg.ringCap) (hb : s.ring.read s.tail = some b) :
    exec .rbRead s = .next (returnHost { s with tail := nextSlot s.cfg s.tail } .ok (.byte b)) := by
  have hread : readStore .ring s.tail s = .ok b := readStore_ok.2 ⟨ht, hb⟩
  change execRbRead s = _
  rw [execRbRead, hostStep_idle hidle, if_neg he, hread, withValue_of_ok, finish]

theorem exec_rbFlush_of_idle {s : State} (hidle : s.hostop = .idle) :
    exec .rbFlush s = .next (returnHost { s with head := 0, tail := 0 } .ok) := by
  change execRbFlush s = _
  rw [execRbFlush, hostStep_idle hidle, finish]

/-- Settles O39: past the guard of the port, by whether the ring is full. -/
theorem ringWriteStoresOrReportsFull : Obligations.RingWriteStoresOrReportsFull := by
  refine ⟨fun _ hop => decode_command_of_op hop, fun _ => rfl, fun s port v hopen => ?_⟩
  rw [exec_rbWrite_of_open hopen]
  refine ⟨fun hf => ringWrite_of_full hf port v, fun hf hh => ⟨_, ringWrite_of_room hf hh port v, ?_⟩⟩
  rw [returnAt_ring]
  exact ⟨rfl, Memory.read_write_same _ _ _, Memory.sameOutside_write _ _ _⟩

/-- Settles O40: past the guard of R35, by whether the ring is empty. -/
theorem ringReadTakesTheByteAtTail : Obligations.RingReadTakesTheByteAtTail :=
  ⟨fun _ hop => decode_command_of_op hop, fun _ hidle =>
    ⟨exec_rbRead_of_empty hidle, fun _ => exec_rbRead_of_written hidle⟩⟩

/-- Settles O41: two indices that are both 0 are the indices of an empty ring. -/
theorem ringFlushEmptiesTheRing : Obligations.RingFlushEmptiesTheRing :=
  ⟨fun _ hop => decode_command_of_op hop, fun _ hidle =>
    ⟨exec_rbFlush_of_idle hidle, _, exec_rbFlush_of_idle hidle, exec_rbRead_of_empty hidle rfl⟩⟩

/-! ## The ring and the receive side (R245) -/

/-- Settles O55, by the frame of a received byte and that of the operations of the two ports. -/
theorem ringAndReceiverAreIndependent : Obligations.RingAndReceiverAreIndependent := by
  refine ⟨fun s t b h => ?reception, fun s t i hi h => ?operation⟩
  case reception =>
    obtain ⟨u, hu, hnext⟩ := withValue_next.1 h
    cases hnext
    rw [receiveByte_frame hu]
    exact ⟨rfl, rfl, rfl⟩
  case operation =>
    have hother : (¬ ∃ bs, encode i = .line bs) ∧ i ≠ .rxArm ∧ i ≠ .rxWait := by
      obtain ⟨_ | _, v, rfl⟩ | rfl | rfl := hi
      all_goals exact ⟨fun ⟨_, hline⟩ => (nomatch hline), nofun, nofun⟩
    obtain ⟨hport, harm, hwait⟩ := hother
    obtain ⟨hbuf, hlen, harmed, harrived, -⟩ := exec_sameReceiver hport harm hwait h
    exact ⟨hbuf, hlen, harmed, harrived⟩

/-! ## The occupancy (R240) -/

theorem ringContent_length (s : State) : (ringContent s).length = ringUsed s := by
  rw [ringContent, List.length_map, List.length_range]

/-- One slot is always free. -/
theorem ringUsed_lt {s : State} (hh : s.head < s.cfg.ringCap) : ringUsed s < s.cfg.ringCap :=
  Nat.mod_lt _ (Nat.zero_lt_of_lt hh)

theorem ringUsed_of_empty {s : State} (ht : s.tail < s.cfg.ringCap) (he : ringEmpty s) : ringUsed s = 0 := by
  have hh : s.head < s.cfg.ringCap := he ▸ ht
  rw [ringUsed_eq hh ht, if_pos he.ge, he, Nat.sub_self]

theorem ringContent_eq_nil_iff {s : State} (hh : s.head < s.cfg.ringCap) (ht : s.tail < s.cfg.ringCap) :
    ringContent s = [] ↔ ringEmpty s := by
  rw [← List.length_eq_zero_iff, ringContent_length]
  refine ⟨fun h0 => ?_, ringUsed_of_empty ht⟩
  by_contra he
  exact (ringUsed_pos hh ht he).ne' h0

/-- R240: full is that the slot after `HEAD` is `TAIL`, and that all slots but one are used. -/
theorem ringFull_iff {s : State} (hh : s.head < s.cfg.ringCap) (ht : s.tail < s.cfg.ringCap) :
    ringFull s ↔ (ringContent s).length = s.cfg.ringCap - 1 := by
  rw [ringContent_length, ringUsed_eq hh ht, ringFull, nextSlot_eq hh]
  split <;> split <;> omega

/-! ## The content after an operation (R244) -/

/-- The slots of the content are not the one `HEAD` names. -/
theorem slot_ne_head {s : State} (hh : s.head < s.cfg.ringCap) (ht : s.tail < s.cfg.ringCap) {k : Nat}
    (hk : k < ringUsed s) : (s.tail + k) % s.cfg.ringCap ≠ s.head := by
  intro heq
  have hlt := ringUsed_lt hh
  have hmod : s.tail + k ≡ s.tail + ringUsed s [MOD s.cfg.ringCap] := heq.trans (slot_of_ringUsed hh ht).symm
  have hsame : k = ringUsed s := (Nat.ModEq.add_left_cancel' s.tail hmod).eq_of_lt_of_lt (hk.trans hlt) hlt
  exact hk.ne hsame

/-- A write into a ring that is not full puts its byte behind the content and leaves the slots before it alone. -/
theorem ringContent_write {s : State} (hh : s.head < s.cfg.ringCap) (ht : s.tail < s.cfg.ringCap) (hf : ¬ ringFull s)
    (v : Byte) : ringContent { s with ring := s.ring.write s.head v, head := nextSlot s.cfg s.head } =
      ringContent s ++ [some v] := by
  have hlast : (s.ring.write s.head v).read ((s.tail + ringUsed s) % s.cfg.ringCap) = some v := by
    rw [slot_of_ringUsed hh ht, Memory.read_write_same]
  have hbefore : ∀ k ∈ List.range (ringUsed s), (s.ring.write s.head v).read ((s.tail + k) % s.cfg.ringCap) =
      s.ring.read ((s.tail + k) % s.cfg.ringCap) := fun k hk =>
    Memory.read_write_other _ v (slot_ne_head hh ht (List.mem_range.1 hk))
  rw [ringContent, ringUsed_write hh ht hf, List.range_succ, List.map_append, List.map_congr_left hbefore,
    List.map_singleton, hlast, ringContent]

/-- The content of a ring that is not empty is the byte at `TAIL`, and behind it what a read leaves. -/
theorem ringContent_of_not_empty {s : State} (hh : s.head < s.cfg.ringCap) (ht : s.tail < s.cfg.ringCap)
    (he : ¬ ringEmpty s) :
    ringContent s = s.ring.read s.tail :: ringContent { s with tail := nextSlot s.cfg s.tail } := by
  rw [ringContent, ← ringUsed_read hh ht he, List.range_succ_eq_map, List.map_cons, List.map_map, Nat.add_zero,
    Nat.mod_eq_of_lt ht, ringContent]
  simp only [slot_of_nextSlot, Function.comp_def, Nat.succ_eq_add_one]

/-- The byte at `TAIL` of a good ring that is not empty has been written. -/
theorem read_tail_of_not_empty {s : State} (h : RingGood s) (he : ¬ ringEmpty s) :
    ∃ b, s.ring.read s.tail = some b := by
  obtain ⟨hh, ht, hall⟩ := h
  have hslot := hall 0 (ringUsed_pos hh ht he)
  rw [Nat.add_zero, Nat.mod_eq_of_lt ht] at hslot
  exact Option.isSome_iff_exists.1 hslot

/-! ## The queue law (R244) -/

/-- A write to a full ring leaves its content. -/
theorem ringWrite_of_content_full {s : State} (h : RingGood s) (hlen : (ringContent s).length = s.cfg.ringCap - 1)
    (port : Port) (v : Byte) : ringWrite port v s = .next (returnAt port s .rbFull) := by
  obtain ⟨hh, ht, -⟩ := h
  exact ringWrite_of_full ((ringFull_iff hh ht).2 hlen) port v

/-- Any other write appends to it, and writes `RING` and `HEAD` alone. -/
theorem ringWrite_appends {s : State} (h : RingGood s) (hlen : (ringContent s).length ≠ s.cfg.ringCap - 1)
    (port : Port) (v : Byte) :
    ∃ t, ringWrite port v s = .next (returnAt port t .ok) ∧ t = { s with ring := t.ring, head := t.head } ∧
      ringContent t = ringContent s ++ [some v] := by
  obtain ⟨hh, ht, -⟩ := h
  have hf : ¬ ringFull s := fun hf => hlen ((ringFull_iff hh ht).1 hf)
  exact ⟨_, ringWrite_of_room hf hh port v, rfl, ringContent_write hh ht hf v⟩

/-- A read of a ring that holds bytes returns and removes the first. -/
theorem exec_rbRead_of_content {s : State} {v : Option Byte} {rest : List (Option Byte)} (h : RingGood s)
    (hidle : s.hostop = .idle) (hc : ringContent s = v :: rest) :
    ∃ b t, v = some b ∧ exec .rbRead s = .next (returnHost t .ok (.byte b)) ∧ ringContent t = rest := by
  have ⟨hh, ht, _⟩ := h
  have he : ¬ ringEmpty s := fun he => List.cons_ne_nil v rest (hc.symm.trans ((ringContent_eq_nil_iff hh ht).2 he))
  obtain ⟨b, hb⟩ := read_tail_of_not_empty h he
  rw [ringContent_of_not_empty hh ht he, hb] at hc
  obtain ⟨rfl, hrest⟩ := List.cons.inj hc
  exact ⟨b, _, rfl, exec_rbRead_of_written hidle he ht hb, hrest⟩

/-- Settles O42, operation by operation. -/
theorem ringIsABoundedQueue : Obligations.RingIsABoundedQueue := by
  intro s hinv hidle
  obtain ⟨-, -, -, -, -, -, hring, -⟩ := hinv
  have ⟨hh, ht, _⟩ := hring
  refine ⟨fun port v hlen => ?full, fun port v hlen => ?append, fun hc => ?empty,
    fun v rest hc => exec_rbRead_of_content hring hidle hc, ⟨_, exec_rbFlush_of_idle hidle, ?flush⟩, ?bound⟩
  case full => rw [exec_rbWrite_of_open (.inr hidle), ringWrite_of_content_full hring hlen]
  case append =>
    obtain ⟨t, hw, -, hc⟩ := ringWrite_appends hring hlen port v
    exact ⟨t, (exec_rbWrite_of_open (.inr hidle) v).trans hw, hc⟩
  case empty => exact exec_rbRead_of_empty hidle ((ringContent_eq_nil_iff hh ht).1 hc)
  case flush =>
    have hpos : 0 < s.cfg.ringCap := Nat.zero_lt_of_lt hh
    exact (ringContent_eq_nil_iff hpos hpos).2 rfl
  case bound =>
    rw [ringContent_length]
    exact Nat.le_sub_one_of_lt (ringUsed_lt hh)

/-- Settles O58: the same law behind the PRODUCER's port, which has no guard. -/
theorem producerWritesAppendWhateverTheHostDoes : Obligations.ProducerWritesAppendWhateverTheHostDoes := by
  intro s v hinv
  obtain ⟨-, -, -, -, -, -, hring, -⟩ := hinv
  rw [exec_rbWrite_of_open (.inl rfl)]
  exact ⟨fun hlen => ringWrite_of_content_full hring hlen .producer v,
    fun hlen => ringWrite_appends hring hlen .producer v⟩

end Sys2Proof.Machine
end

section
/-! The clock (60_exceptions.md): `NOW` advances by the tick (R276), and no other step writes it (R282). -/

namespace Sys2Proof.Machine

/-- What the idle line does: it completes a live receive that has a byte, or nothing (R195). -/
theorem eventIdle_next {s t : State} (h : eventIdle s = .next t) :
    (s.rxArmed = true ∧ 0 < s.rxLen ∧ t = completeReceive s) ∨ t = s := by
  unfold eventIdle at h
  split at h
  case isTrue hlive =>
    obtain ⟨harmed, hpos⟩ := hlive
    cases h
    exact .inl ⟨harmed, hpos, rfl⟩
  case isFalse => cases h; exact .inr rfl

/-- Of the events only the tick writes the clock; the reset keeps it (R300). -/
theorem runEvent_now {e : Event} {s t : State} (htick : e ≠ .tick) (h : runEvent e s = .next t) : t.now = s.now := by
  cases e
  case txAccept =>
    obtain ⟨-, b, -, rfl⟩ := eventTxAccept_next h
    rfl
  case rx b =>
    rw [← receiveBytes_singleton] at h
    obtain ⟨-, hnow, -⟩ := receiveBytes_sameSurroundings h
    exact hnow
  case idle => obtain ⟨-, -, rfl⟩ | rfl := eventIdle_next h <;> rfl
  case tick => exact absurd rfl htick
  case hostPoll =>
    obtain ⟨-, rfl⟩ | ⟨-, rfl⟩ | ⟨-, rfl⟩ | ⟨-, rfl⟩ | rfl := eventHostPoll_next h <;> rfl
  case reset => cases h; rfl

/-- Settles O43, by the kind of step: the tick is its equation, and of the steps other than events none touches what
surrounds the codec. -/
theorem onlyTheTickMovesTheClock : Obligations.OnlyTheTickMovesTheClock := by
  refine ⟨fun _ => rfl, fun s t e hnotick => ?_⟩
  obtain ⟨-, hs⟩ | ⟨ev, rest, hev, hs⟩ | ⟨i, rest, -, hs⟩ | ⟨bs, rest, hs⟩ | ⟨r, hs⟩ := step_kinds s <;> rw [hs] at e
  case inl => cases e; rfl
  case inr.inl =>
    have htick : ev ≠ .tick := by rintro rfl; exact hnotick hev
    exact (runEvent_now htick e).trans (withPending_now s rest)
  case inr.inr.inl =>
    obtain ⟨-, hnow, -⟩ := exec_sameSurroundings e
    exact hnow
  case inr.inr.inr.inl =>
    obtain ⟨-, hnow, -⟩ := receiveBytes_sameSurroundings e
    exact hnow
  case inr.inr.inr.inr => cases e

end Sys2Proof.Machine
end

section
/-! Steps that are not enabled (log entry 12), the stale completion of R312, and the reset event on the fields the table
of R46 does not fix (70_reset_and_hazards.md). -/

namespace Sys2Proof.Machine

/-! ## Steps that are not enabled -/

/-- With no operation in progress the HOST has no completion step to look for. -/
theorem hostPoll_of_idle {s : State} (h : s.hostop = .idle) : runEvent .hostPoll s = .refused .stepNotEnabled := by
  simp only [runEvent, eventHostPoll, h]

/-- The poll of a busy wait: no completion step is enabled, and nothing changes. -/
theorem hostPoll_of_not_hostMayReturn {s : State} (hbusy : s.hostop ≠ .idle) (hmay : ¬ HostMayReturn s) :
    runEvent .hostPoll s = .next s := by
  simp only [HostMayReturn, not_or] at hmay
  obtain ⟨hsendDone, hsendOut, hwaitDone, hwaitOut⟩ := hmay
  obtain hop | hop := sending_or_waiting_of_busy hbusy
  · simp only [runEvent, eventHostPoll, hop, if_neg hsendDone, if_neg hsendOut]
  · simp only [runEvent, eventHostPoll, hop, if_neg hwaitDone, if_neg hwaitOut]

/-- A send may return at its own completion steps only (R176, R177). -/
theorem hostMayReturn_iff_of_sending {s : State} (hop : s.hostop = .sending) :
    HostMayReturn s ↔ s.txIdx = s.txLen ∨
      (s.txIdx < s.txLen ∧ (s.cfg.txTimeoutMs : Int) ≤ elapsedInt s.cfg s.now s.txT0) := by
  rw [HostMayReturn, sendTimedOut_iff_elapsedInt hop]
  simp [sendDone, waitDone, waitTimedOut, hop]

/-- A wait may return at its own completion steps only (R197, R198). -/
theorem hostMayReturn_iff_of_waiting {s : State} (hop : s.hostop = .waiting) :
    HostMayReturn s ↔ s.frameArrived = true ∨
      (s.frameArrived = false ∧ (s.cfg.rxTimeoutMs : Int) ≤ elapsedInt s.cfg s.now s.rxT0) := by
  rw [HostMayReturn, waitTimedOut_iff_elapsedInt hop]
  simp [sendDone, sendTimedOut, waitDone, hop]

/-- Settles O26: `!TXACC` outside its condition and the idle poll are refused; before its deadline, with bytes left to
emit or no frame arrived, a blocking operation has no completion step enabled. -/
theorem stepsThatAreNotEnabledHaveNoEffect : Obligations.StepsThatAreNotEnabledHaveNoEffect := by
  refine ⟨fun s h => ?accept, fun s hidle => hostPoll_of_idle hidle, fun s hop hlt hearly => ?sending,
    fun s hop harr hearly => ?waiting⟩
  case accept =>
    have hnot : ¬ txAcceptEnabled s := fun ⟨hop, hlt⟩ => h.elim (fun hne => hne hop) hlt.not_ge
    exact eventTxAccept_of_not_enabled hnot
  case sending =>
    refine hostPoll_of_not_hostMayReturn (by rw [hop]; nofun) ?_
    rw [hostMayReturn_iff_of_sending hop]
    omega
  case waiting =>
    refine hostPoll_of_not_hostMayReturn (by rw [hop]; nofun) ?_
    rw [hostMayReturn_iff_of_waiting hop, harr]
    simpa using hearly

/-! ## The stale completion (R312, R43 b) -/

/-- A wait that completes right after its start differs from the state it started in by `RX_T0`, `SYNC` and the status
returned alone. -/
theorem completeWait_startWait {s : State} (hidle : s.hostop = .idle) :
    completeWait (startWait s) = returnHost { s with rxT0 := s.now, sync := .completed } .ok := by
  simp only [completeWait, startWait, returnHost, ← hidle]

/-- Settles O34: the start step does not clear the flag, so the first poll finds the wait done (R197). -/
theorem staleCompletionSatisfiesTheNextWait : Obligations.StaleCompletionSatisfiesTheNextWait := by
  intro s hidle harr
  have hdone : waitDone (startWait s) := ⟨rfl, harr⟩
  exact ⟨_, _, exec_rxWait_of_idle hidle, hostPoll_of_waitDone hdone, completeWait_startWait hidle⟩

/-! ## The reset event (R300) -/

/-- The reset event reads the parameters, the clock and the schedule, and nothing else. -/
theorem runEvent_reset (s : State) : runEvent .reset s = .next (State.resetWith s.cfg s.now s.pending) := rfl

/-- A state after reset is left as it is by a second one. -/
theorem runEvent_reset_resetWith (cfg : Config) (now : Nat) (pending : List Stimulus) :
    runEvent .reset (State.resetWith cfg now pending) = .next (State.resetWith cfg now pending) :=
  runEvent_reset _

/-- Settles O45: the fields are those of `State.resetWith`. -/
theorem resetEventOnTheModelsOwnFields : Obligations.ResetEventOnTheModelsOwnFields := fun s =>
  ⟨_, runEvent_reset s, rfl, rfl, rfl, rfl, rfl, rfl⟩

/-- Settles O46: `State.reset` is a state after reset, under the defaults of the parameter table. -/
theorem resetStateHasTheDefaultParameters : Obligations.ResetStateHasTheDefaultParameters :=
  ⟨runEvent_reset_resetWith {} 0 [], rfl, rfl, rfl⟩

end Sys2Proof.Machine
end
